-- ==== Sys2Proof/Word.lean ====
section
/-! DEFINITION. Sys2Proof/Word.lean: the word types of the block (00_scope.md R7, R9): every value is unsigned, registers are
8 bits modulo 256 and addresses 12 bits modulo 4096, so the arithmetic of the bit vector types is the block's. -/
namespace Sys2Proof

/-- A register value, a timer, a memory byte or an immediate `kk` (R9, R17). -/
abbrev Byte := BitVec 8

/-- An "address-sized" value, 0..4095 (R7 ADDR_BITS; R20, R21, R23). -/
abbrev Addr := BitVec 12

/-- A four-bit slice of an instruction word (R8). -/
abbrev Nibble := BitVec 4

/-- A register index: V0 is 0, VF is 15 (R12, R17). -/
abbrev Reg := BitVec 4

/-- An instruction word (R60). -/
abbrev Word := BitVec 16

/-- The sixteen flags of the keypad snapshot, key k at bit k (R30, R31). -/
abbrev Keypad := BitVec 16

/-- The 64 × 32 grid of one-bit pixels in the order of the `render_fb` lines: pixel (x, y) at bit 64·y + x (R28, R32). -/
abbrev Framebuffer := BitVec 2048

end Sys2Proof
end

