-- ==== Sys2Proof/Syntax.lean ====
section
/-! DEFINITION. Sys2Proof/Syntax.lean: the instructions, one constructor for each row of spec/opcode_table.json (30_encoding.md R64),
with the operands of R12: `x`, `y` register indices, `n` a height, `kk` an immediate byte, `nnn` an address. -/
namespace Sys2Proof

/-- The 34 instructions and the NOP tag (R64, R69). -/
inductive Instr where
  /-- `00E0` CLS -/
  | cls
  /-- `00EE` RET -/
  | ret
  /-- `1nnn` JP nnn -/
  | jp (nnn : Addr)
  /-- `2nnn` CALL nnn -/
  | call (nnn : Addr)
  /-- `3xkk` SE Vx, kk -/
  | seVxKk (x : Reg) (kk : Byte)
  /-- `4xkk` SNE Vx, kk -/
  | sneVxKk (x : Reg) (kk : Byte)
  /-- `5xy0` SE Vx, Vy -/
  | seVxVy (x y : Reg)
  /-- `6xkk` LD Vx, kk -/
  | ldVxKk (x : Reg) (kk : Byte)
  /-- `7xkk` ADD Vx, kk -/
  | addVxKk (x : Reg) (kk : Byte)
  /-- `8xy0` LD Vx, Vy -/
  | ldVxVy (x y : Reg)
  /-- `8xy1` OR Vx, Vy -/
  | orVxVy (x y : Reg)
  /-- `8xy2` AND Vx, Vy -/
  | andVxVy (x y : Reg)
  /-- `8xy3` XOR Vx, Vy -/
  | xorVxVy (x y : Reg)
  /-- `8xy4` ADD Vx, Vy -/
  | addVxVy (x y : Reg)
  /-- `8xy5` SUB Vx, Vy -/
  | subVxVy (x y : Reg)
  /-- `8xy6` SHR Vx {, Vy}: the y field is decoded but ignored (R67, R71) -/
  | shrVx (x y : Reg)
  /-- `8xy7` SUBN Vx, Vy -/
  | subnVxVy (x y : Reg)
  /-- `8xyE` SHL Vx {, Vy}: the y field is decoded but ignored (R67, R71) -/
  | shlVx (x y : Reg)
  /-- `9xy0` SNE Vx, Vy -/
  | sneVxVy (x y : Reg)
  /-- `Annn` LD I, nnn -/
  | ldINnn (nnn : Addr)
  /-- `Bnnn` JP V0, nnn -/
  | jpV0Nnn (nnn : Addr)
  /-- `Cxkk` RND Vx, kk -/
  | rndVxKk (x : Reg) (kk : Byte)
  /-- `Dxyn` DRW Vx, Vy, n -/
  | drw (x y : Reg) (n : Nibble)
  /-- `Ex9E` SKP Vx -/
  | skpVx (x : Reg)
  /-- `ExA1` SKNP Vx -/
  | sknpVx (x : Reg)
  /-- `Fx07` LD Vx, DT -/
  | ldVxDt (x : Reg)
  /-- `Fx0A` LD Vx, K -/
  | ldVxK (x : Reg)
  /-- `Fx15` LD DT, Vx -/
  | ldDtVx (x : Reg)
  /-- `Fx18` LD ST, Vx -/
  | ldStVx (x : Reg)
  /-- `Fx1E` ADD I, Vx -/
  | addIVx (x : Reg)
  /-- `Fx29` LD F, Vx -/
  | ldFVx (x : Reg)
  /-- `Fx33` LD B, Vx -/
  | ldBVx (x : Reg)
  /-- `Fx55` LD [I], Vx -/
  | ldMemVx (x : Reg)
  /-- `Fx65` LD Vx, [I] -/
  | ldVxMem (x : Reg)
  /-- The NOP tag: the decode result of the unrecognised word `w` (R69); its operands are ignored (R71). -/
  | nop (w : Word)
  deriving DecidableEq, Repr

end Sys2Proof
end

