-- ==== Sys2Proof/Decode.lean ====
section
/-! DEFINITION. Sys2Proof/Decode.lean: the operand fields (30_encoding.md R61, R62), the decoder (R63 to R71), the encoder written from
the same map, and the map itself as the table of R64. The bit patterns are the conventional CHIP-8 ones, which the spec supplies
from general knowledge (D4; log 1); which words count as unrecognised is the strict matching of D6 (log 2). -/
namespace Sys2Proof

/-! ### Operand fields (R12, R62) -/

/-- The first nibble, `w[15:12]`, the major opcode. -/
def fieldO (w : Word) : Nibble := w.extractLsb' 12 4
/-- `x = w[11:8]`. -/
def fieldX (w : Word) : Reg := w.extractLsb' 8 4
/-- `y = w[7:4]`. -/
def fieldY (w : Word) : Reg := w.extractLsb' 4 4
/-- `n = w[3:0]`, also the function nibble of format XYF. -/
def fieldN (w : Word) : Nibble := w.extractLsb' 0 4
/-- `kk = w[7:0]`, also the function byte of format XF. -/
def fieldKK (w : Word) : Byte := w.extractLsb' 0 8
/-- `nnn = w[11:0]`. -/
def fieldNNN (w : Word) : Addr := w.extractLsb' 0 12

/-! ### The decoder -/

/-- First nibble 0x0 (R65): exactly `00E0` and `00EE` are instructions. -/
def decodeGroup0 (w : Word) : Instr :=
  if w = 0x00E0#16 then .cls
  else if w = 0x00EE#16 then .ret
  else .nop w

/-- First nibble 0x8 (R67): the fourth nibble selects the operation. -/
def decodeGroup8 (w : Word) : Instr :=
  let x := fieldX w
  let y := fieldY w
  if fieldN w = 0x0#4 then .ldVxVy x y
  else if fieldN w = 0x1#4 then .orVxVy x y
  else if fieldN w = 0x2#4 then .andVxVy x y
  else if fieldN w = 0x3#4 then .xorVxVy x y
  else if fieldN w = 0x4#4 then .addVxVy x y
  else if fieldN w = 0x5#4 then .subVxVy x y
  else if fieldN w = 0x6#4 then .shrVx x y
  else if fieldN w = 0x7#4 then .subnVxVy x y
  else if fieldN w = 0xE#4 then .shlVx x y
  else .nop w

/-- First nibble 0xE (R68): the low byte selects the operation. -/
def decodeGroupE (w : Word) : Instr :=
  if fieldKK w = 0x9E#8 then .skpVx (fieldX w)
  else if fieldKK w = 0xA1#8 then .sknpVx (fieldX w)
  else .nop w

/-- First nibble 0xF (R68): the low byte selects the operation. -/
def decodeGroupF (w : Word) : Instr :=
  let x := fieldX w
  if fieldKK w = 0x07#8 then .ldVxDt x
  else if fieldKK w = 0x0A#8 then .ldVxK x
  else if fieldKK w = 0x15#8 then .ldDtVx x
  else if fieldKK w = 0x18#8 then .ldStVx x
  else if fieldKK w = 0x1E#8 then .addIVx x
  else if fieldKK w = 0x29#8 then .ldFVx x
  else if fieldKK w = 0x33#8 then .ldBVx x
  else if fieldKK w = 0x55#8 then .ldMemVx x
  else if fieldKK w = 0x65#8 then .ldVxMem x
  else .nop w

/-- Decode is a pure function of the word (R63), total: a word no pattern matches is the NOP tag (R69, R70). -/
def decodeWord (w : Word) : Instr :=
  if fieldO w = 0x0#4 then decodeGroup0 w
  else if fieldO w = 0x1#4 then .jp (fieldNNN w)
  else if fieldO w = 0x2#4 then .call (fieldNNN w)
  else if fieldO w = 0x3#4 then .seVxKk (fieldX w) (fieldKK w)
  else if fieldO w = 0x4#4 then .sneVxKk (fieldX w) (fieldKK w)
  else if fieldO w = 0x5#4 then (if fieldN w = 0x0#4 then .seVxVy (fieldX w) (fieldY w) else .nop w)
  else if fieldO w = 0x6#4 then .ldVxKk (fieldX w) (fieldKK w)
  else if fieldO w = 0x7#4 then .addVxKk (fieldX w) (fieldKK w)
  else if fieldO w = 0x8#4 then decodeGroup8 w
  else if fieldO w = 0x9#4 then (if fieldN w = 0x0#4 then .sneVxVy (fieldX w) (fieldY w) else .nop w)
  else if fieldO w = 0xA#4 then .ldINnn (fieldNNN w)
  else if fieldO w = 0xB#4 then .jpV0Nnn (fieldNNN w)
  else if fieldO w = 0xC#4 then .rndVxKk (fieldX w) (fieldKK w)
  else if fieldO w = 0xD#4 then .drw (fieldX w) (fieldY w) (fieldN w)
  else if fieldO w = 0xE#4 then decodeGroupE w
  else decodeGroupF w

/-- The word of two bytes, the byte at the lower address in the high half (20_memory.md R44). -/
def joinBytes (hi lo : Byte) : Word := hi ++ lo

/-- The one way a byte list fails to decode. -/
inductive DecodeError where
  /-- Fewer than two bytes: every instruction is one 16-bit word (R60). Fetch always has two bytes (40_cycle.md R76), so no
  step meets this. -/
  | truncated
  deriving DecidableEq, Repr

/-- The instruction at the head of a byte list, with the bytes after it (R44, R60). -/
def decode : List Byte → Except DecodeError (Instr × List Byte)
  | hi :: lo :: rest => .ok (decodeWord (joinBytes hi lo), rest)
  | _ => .error .truncated

/-- What the decoder reads from the instruction whose bits the opcode table numbers as `w`: the one 16-bit word, laid out big-endian
(R44). Bits at and above `nbits` are 0. -/
def decodeTableWord (nbits w : Nat) : Option Instr :=
  match decode [BitVec.ofNat 8 (w % 2 ^ nbits / 256), BitVec.ofNat 8 (w % 2 ^ nbits)] with
  | .ok (i, _) => some i
  | .error _ => none

/-! ### The encoder -/

/-- Format NNN (R61). -/
def packNNN (o : Nibble) (nnn : Addr) : Word := o ++ nnn
/-- Formats XKK and XF (R61). -/
def packXKK (o : Nibble) (x : Reg) (kk : Byte) : Word := o ++ x ++ kk
/-- Formats XYF and XYN (R61). -/
def packXYN (o : Nibble) (x y : Reg) (n : Nibble) : Word := o ++ x ++ y ++ n

/-- The word of a well-formed instruction (R61, R64). -/
def encode : Instr → Word
  | .cls => 0x00E0#16
  | .ret => 0x00EE#16
  | .jp nnn => packNNN 0x1#4 nnn
  | .call nnn => packNNN 0x2#4 nnn
  | .seVxKk x kk => packXKK 0x3#4 x kk
  | .sneVxKk x kk => packXKK 0x4#4 x kk
  | .seVxVy x y => packXYN 0x5#4 x y 0x0#4
  | .ldVxKk x kk => packXKK 0x6#4 x kk
  | .addVxKk x kk => packXKK 0x7#4 x kk
  | .ldVxVy x y => packXYN 0x8#4 x y 0x0#4
  | .orVxVy x y => packXYN 0x8#4 x y 0x1#4
  | .andVxVy x y => packXYN 0x8#4 x y 0x2#4
  | .xorVxVy x y => packXYN 0x8#4 x y 0x3#4
  | .addVxVy x y => packXYN 0x8#4 x y 0x4#4
  | .subVxVy x y => packXYN 0x8#4 x y 0x5#4
  | .shrVx x y => packXYN 0x8#4 x y 0x6#4
  | .subnVxVy x y => packXYN 0x8#4 x y 0x7#4
  | .shlVx x y => packXYN 0x8#4 x y 0xE#4
  | .sneVxVy x y => packXYN 0x9#4 x y 0x0#4
  | .ldINnn nnn => packNNN 0xA#4 nnn
  | .jpV0Nnn nnn => packNNN 0xB#4 nnn
  | .rndVxKk x kk => packXKK 0xC#4 x kk
  | .drw x y n => packXYN 0xD#4 x y n
  | .skpVx x => packXKK 0xE#4 x 0x9E#8
  | .sknpVx x => packXKK 0xE#4 x 0xA1#8
  | .ldVxDt x => packXKK 0xF#4 x 0x07#8
  | .ldVxK x => packXKK 0xF#4 x 0x0A#8
  | .ldDtVx x => packXKK 0xF#4 x 0x15#8
  | .ldStVx x => packXKK 0xF#4 x 0x18#8
  | .addIVx x => packXKK 0xF#4 x 0x1E#8
  | .ldFVx x => packXKK 0xF#4 x 0x29#8
  | .ldBVx x => packXKK 0xF#4 x 0x33#8
  | .ldMemVx x => packXKK 0xF#4 x 0x55#8
  | .ldVxMem x => packXKK 0xF#4 x 0x65#8
  | .nop w => w

/-- The bytes of an instruction in memory order: high byte first (R44). -/
def encodeBytes (i : Instr) : List Byte :=
  [(encode i).extractLsb' 8 8, (encode i).extractLsb' 0 8]

/-! ### The opcode map as data (R64) -/

/-- One row of the map: a word matches the row when its bits under `mask` are `value`. -/
structure OpcodeRow where
  mnemonic : String
  mask : Word
  value : Word
  deriving DecidableEq, Repr

/-- The word matches the row's pattern. -/
def OpcodeRow.covers (r : OpcodeRow) (w : Word) : Bool := w &&& r.mask == r.value

/-- The 34 rows above the default row, in the order of R64, with the mnemonics of spec/opcode_table.json. -/
def opcodeMap : List OpcodeRow :=
  [⟨"CLS", 0xFFFF#16, 0x00E0#16⟩, ⟨"RET", 0xFFFF#16, 0x00EE#16⟩, ⟨"JP_nnn", 0xF000#16, 0x1000#16⟩,
   ⟨"CALL_nnn", 0xF000#16, 0x2000#16⟩, ⟨"SE_Vx__kk", 0xF000#16, 0x3000#16⟩, ⟨"SNE_Vx__kk", 0xF000#16, 0x4000#16⟩,
   ⟨"SE_Vx__Vy", 0xF00F#16, 0x5000#16⟩, ⟨"LD_Vx__kk", 0xF000#16, 0x6000#16⟩, ⟨"ADD_Vx__kk", 0xF000#16, 0x7000#16⟩] ++
  [⟨"LD_Vx__Vy", 0xF00F#16, 0x8000#16⟩, ⟨"OR_Vx__Vy", 0xF00F#16, 0x8001#16⟩, ⟨"AND_Vx__Vy", 0xF00F#16, 0x8002#16⟩,
   ⟨"XOR_Vx__Vy", 0xF00F#16, 0x8003#16⟩, ⟨"ADD_Vx__Vy", 0xF00F#16, 0x8004#16⟩, ⟨"SUB_Vx__Vy", 0xF00F#16, 0x8005#16⟩,
   ⟨"SHR_Vx____Vy", 0xF00F#16, 0x8006#16⟩, ⟨"SUBN_Vx__Vy", 0xF00F#16, 0x8007#16⟩, ⟨"SHL_Vx____Vy", 0xF00F#16, 0x800E#16⟩,
   ⟨"SNE_Vx__Vy", 0xF00F#16, 0x9000#16⟩] ++
  [⟨"LD_I__nnn", 0xF000#16, 0xA000#16⟩, ⟨"JP_V0__nnn", 0xF000#16, 0xB000#16⟩, ⟨"RND_Vx__kk", 0xF000#16, 0xC000#16⟩,
   ⟨"DRW_Vx__Vy__n", 0xF000#16, 0xD000#16⟩, ⟨"SKP_Vx", 0xF0FF#16, 0xE09E#16⟩, ⟨"SKNP_Vx", 0xF0FF#16, 0xE0A1#16⟩] ++
  [⟨"LD_Vx__DT", 0xF0FF#16, 0xF007#16⟩, ⟨"LD_Vx__K", 0xF0FF#16, 0xF00A#16⟩, ⟨"LD_DT__Vx", 0xF0FF#16, 0xF015#16⟩,
   ⟨"LD_ST__Vx", 0xF0FF#16, 0xF018#16⟩, ⟨"ADD_I__Vx", 0xF0FF#16, 0xF01E#16⟩, ⟨"LD_F__Vx", 0xF0FF#16, 0xF029#16⟩,
   ⟨"LD_B__Vx", 0xF0FF#16, 0xF033#16⟩, ⟨"LD__I___Vx", 0xF0FF#16, 0xF055#16⟩, ⟨"LD_Vx___I", 0xF0FF#16, 0xF065#16⟩]

/-- The table's mnemonic of an instruction. -/
def Instr.mnemonic : Instr → String
  | .cls => "CLS" | .ret => "RET" | .jp _ => "JP_nnn" | .call _ => "CALL_nnn"
  | .seVxKk _ _ => "SE_Vx__kk" | .sneVxKk _ _ => "SNE_Vx__kk" | .seVxVy _ _ => "SE_Vx__Vy"
  | .ldVxKk _ _ => "LD_Vx__kk" | .addVxKk _ _ => "ADD_Vx__kk" | .ldVxVy _ _ => "LD_Vx__Vy"
  | .orVxVy _ _ => "OR_Vx__Vy" | .andVxVy _ _ => "AND_Vx__Vy" | .xorVxVy _ _ => "XOR_Vx__Vy"
  | .addVxVy _ _ => "ADD_Vx__Vy" | .subVxVy _ _ => "SUB_Vx__Vy" | .shrVx _ _ => "SHR_Vx____Vy"
  | .subnVxVy _ _ => "SUBN_Vx__Vy" | .shlVx _ _ => "SHL_Vx____Vy" | .sneVxVy _ _ => "SNE_Vx__Vy"
  | .ldINnn _ => "LD_I__nnn" | .jpV0Nnn _ => "JP_V0__nnn" | .rndVxKk _ _ => "RND_Vx__kk"
  | .drw _ _ _ => "DRW_Vx__Vy__n" | .skpVx _ => "SKP_Vx" | .sknpVx _ => "SKNP_Vx"
  | .ldVxDt _ => "LD_Vx__DT" | .ldVxK _ => "LD_Vx__K" | .ldDtVx _ => "LD_DT__Vx"
  | .ldStVx _ => "LD_ST__Vx" | .addIVx _ => "ADD_I__Vx" | .ldFVx _ => "LD_F__Vx"
  | .ldBVx _ => "LD_B__Vx" | .ldMemVx _ => "LD__I___Vx" | .ldVxMem _ => "LD_Vx___I"
  | .nop _ => "NOP_tag"

end Sys2Proof
end

