-- ==== Sys2Proof/Config.lean ====
section
/-! DEFINITION. Sys2Proof/Config.lean: the fixed parameters of the block (00_scope.md R7) and its free values. A free value has no
body, so no proof can see what it is: a statement that holds of the model holds whatever the environment presents. -/
namespace Sys2Proof
namespace Config

/-- MEM_SIZE (R7): addresses 0x000 to 0xFFF. -/
def memSize : Nat := 4096

/-- ROM_BASE and PC_RESET (R7): where the ROM is loaded and where the first instruction is fetched. -/
def romBase : Nat := 0x200

/-- STACK_DEPTH (R7). -/
def stackDepth : Nat := 16

/-- Free value: what the environment holds on `keys[15:0]` at the poll with this number, when no input is queued
(10_state.md R31; log 3). -/
opaque freeKeys : Nat → Keypad

/-- Free value: the byte on `rnd[7:0]` in the tick with this poll number, when no input is queued. RNG is a parameter: "a free
draw of any byte in [0,255] under no law" (42_data_arith.md R106, D21; log 3). -/
opaque freeRnd : Nat → Byte

/-- TICK_PERIOD (R7, R84): a parameter no rule reads, and no definition of the model does (log 19). -/
opaque tickPeriod : Nat

end Config
end Sys2Proof
end

