-- ==== Sys2Proof/Machine/State.lean ====
section
/-! DEFINITION. Sys2Proof/Machine/State.lean: everything the spec gives the machine (10_state.md R17 to R41) as plain data, the reasons a
step could stop, and the state after reset (R41, R142). -/
namespace Sys2Proof.Machine

/-- What the environment presents to one poll: the keys and the random byte of that tick (R31). -/
structure TickInput where
  /-- `keys[15:0]`, bit k is key k. -/
  keys : Keypad
  /-- `rnd[7:0]`, read by RND alone. -/
  rnd : Byte
  deriving DecidableEq, Repr

/-- The conditions of 60_exceptions.md R125. Raising one is no stop of the model: it takes the machine to the halted state (R129). -/
inductive Condition where
  /-- CALL with SP = 16 (R126). -/
  | stackOverflow
  /-- RET with SP = 0 (R127). -/
  | stackUnderflow
  /-- SKP or SKNP with V[x] > 15 (R128). -/
  | invalidKeyIndex
  deriving DecidableEq, Repr

/-- Memory as cells at strictly rising addresses, none equal to what an unlisted address reads as (Machine/Memory.lean). -/
abbrev Memory := List Host.Cell

/-- The state of the block, its outputs included (R32, R38), and the environment's side of the inputs (log 3). -/
structure State where
  /-- V0 to VF (R17, R18). -/
  v : Vector Byte 16
  /-- The index register (R20). -/
  i : Addr
  /-- The program counter (R21). -/
  pc : Addr
  /-- The number of occupied stack entries, a natural in [0,16] (R23; log 20). -/
  sp : Fin 17
  /-- STACK[0] to STACK[15] (R23, R24). -/
  stack : Vector Addr 16
  /-- The delay timer (R25). -/
  dt : Byte
  /-- The sound timer (R26). -/
  st : Byte
  /-- MEM[0x000] to MEM[0xFFF] (R27, R42). -/
  mem : Memory
  /-- The framebuffer, pixel (x, y) at bit 64·y + x (R28, R32; log 8). -/
  fb : Framebuffer
  /-- The dirty flag (R29). -/
  dirty : Bool
  /-- The keypad snapshot (R30). -/
  key : Keypad
  /-- HALTED (R37). -/
  halted : Bool
  /-- FAULT_CODE (R37, R125). -/
  faultCode : BitVec 2
  /-- FAULT_PC (R37, R125). -/
  faultPc : Addr
  /-- The tone output, a level that holds until the next step 4 (R32, R136). -/
  tone : Bool
  /-- The render output of the last tick: the snapshot it emitted, none where `render_valid` was 0 (R32, R75; log 8). -/
  render : Option Framebuffer
  /-- The boot phase is open: the ROM load port is accepted (R34, R143; log 7). -/
  booting : Bool
  /-- The byte on the `rnd` input in this tick (R31, R79). -/
  rnd : Byte
  /-- The MODEL's own: inputs to come, one entry a poll, the next one first (log 3). -/
  inputs : List TickInput
  /-- The MODEL's own: how many polls were made, the index of the free values of Config (log 3). -/
  polls : Nat
  deriving DecidableEq, Repr

/-- The reasons a step ends in a fault. There is none: "every instruction word at every state has a defined outcome in this spec: a
next state, or the halted state" (00_scope.md R16), and the halted state is a next state too (log 9). Safe: no claim rests on a
stop the hardware does not make. -/
inductive Fault where
  deriving DecidableEq, Repr

/-- The reasons an instruction has no meaning in the model. -/
inductive Refusal where
  /-- Raised by an arm of `exec` whose instruction has no meaning yet. Safe. No arm of this model answers so. -/
  | notModelled (mnemonic : String)
  deriving DecidableEq, Repr

/-- The machine right after reset (R41, R142): PC at 0x200, memory as its reset contents (nothing listed), every other register, the
stack, the timers, the framebuffer, DIRTY, KEY and the fault status zero (D16; log 5), the tone off, the boot phase open. The model's
own fields start empty (log 4). -/
def State.reset : State where
  v := Vector.replicate 16 0#8
  i := 0#12
  pc := 0x200#12
  sp := 0
  stack := Vector.replicate 16 0#12
  dt := 0#8
  st := 0#8
  mem := []
  fb := 0#2048
  dirty := false
  key := 0#16
  halted := false
  faultCode := 0#2
  faultPc := 0#12
  tone := false
  render := none
  booting := true
  rnd := 0#8
  inputs := []
  polls := 0

end Sys2Proof.Machine
end

