-- ==== Sys2Proof/Machine/Ops.lean ====
section
/-! DEFINITION. Sys2Proof/Machine/Ops.lean: the named operations over registers, memory, pixels and the stack (00_scope.md R10), fetching
(40_cycle.md R76, R77), and entering the halted state with the one return from it (60_exceptions.md R129, R131). -/
namespace Sys2Proof.Machine

/-- What every meaning answers. -/
abbrev Result := Host.Outcome State Fault Refusal

/-! ### Registers (R17) -/

/-- `V[r]`. -/
def State.getV (s : State) (r : Reg) : Byte := s.v[r.toNat]'r.isLt

/-- `V[r] <- b`; no register is hardwired (R17). -/
def State.setV (s : State) (r : Reg) (b : Byte) : State := { s with v := s.v.set r.toNat b r.isLt }

/-- VF, the flag register (R18). -/
def regF : Reg := 0xF#4

/-! ### Memory (R10, R42, R51): an address is a 12-bit value, so every address is reduced modulo 4096 -/

/-- `MemRead(a, 1)`. -/
def State.memRead (s : State) (a : Addr) : Byte := s.mem.read a.toNat

/-- `MemWrite(a, 1, b)`; every byte is writable (R50). -/
def State.memWrite (s : State) (a : Addr) (b : Byte) : State := { s with mem := s.mem.write a.toNat b }

/-- The address `I + k` modulo 4096 (R51). -/
def State.indexed (s : State) (k : Nat) : Addr := s.i + BitVec.ofNat 12 k

/-- `for k in 0 .. n-1: MemWrite(I + k, 1, V[k])`. -/
def State.storeRegs : Nat → State → State
  | 0, s => s
  | k + 1, s =>
    let s' := State.storeRegs k s
    s'.memWrite (s'.indexed k) (s'.getV (BitVec.ofNat 4 k))

/-- `for k in 0 .. n-1: V[k] <- MemRead(I + k, 1)`. -/
def State.loadRegs : Nat → State → State
  | 0, s => s
  | k + 1, s =>
    let s' := State.loadRegs k s
    s'.setV (BitVec.ofNat 4 k) (s'.memRead (s'.indexed k))

/-! ### Pixels (R28, R32) -/

/-- The bit of the framebuffer that holds pixel (x, y). -/
def pixelIndex (x y : Nat) : Nat := 64 * y + x

/-- `FB[x][y]`. -/
def pixel (fb : Framebuffer) (x y : Nat) : Bool := fb.getLsbD (pixelIndex x y)

/-- `FB[x][y] <- FB[x][y] XOR bit`. -/
def xorPixel (fb : Framebuffer) (x y : Nat) (bit : Bool) : Framebuffer :=
  if bit then fb ^^^ BitVec.twoPow 2048 (pixelIndex x y) else fb

/-- The screen and the collision so far, while a sprite is drawn (43_memory_sprites.md R113). -/
abbrev Canvas := Framebuffer × Bool

/-- One pixel of a sprite: the collision accumulates "if bit = 1 and FB[px][py] = 1", then the bit is XORed in (R113). -/
def drawPixel (c : Canvas) (px py : Nat) (bit : Bool) : Canvas :=
  (xorPixel c.1 px py bit, c.2 || (bit && pixel c.1 px py))

/-- The first `j` pixels of row `r` of a sprite, the most significant bit of the row's byte first: pixel j goes to column
`(x0 + j) mod 64`, row `(y0 + r) mod 32` (R113). -/
def drawRow (x0 y0 b : Byte) (r : Nat) : Nat → Canvas → Canvas
  | 0, c => c
  | j + 1, c => drawPixel (drawRow x0 y0 b r j c) ((x0.toNat + j) % 64) ((y0.toNat + r) % 32) (b.getLsbD (7 - j))

/-- The first `n` rows of the sprite at I, row r from `MemRead(I + r, 1)` (R113). -/
def State.drawRows (s : State) (x0 y0 : Byte) : Nat → Canvas → Canvas
  | 0, c => c
  | r + 1, c => drawRow x0 y0 (s.memRead (s.indexed r)) r 8 (s.drawRows x0 y0 r c)

/-! ### The program counter (R21, R83) -/

/-- The address `a` the executing word was fetched from: during execute PC = (a + 2) mod 4096 (R83; log 11). -/
def State.instrAddr (s : State) : Addr := s.pc - 2#12

/-- `PC <- target`. -/
def State.jump (s : State) (target : Addr) : State := { s with pc := target }

/-- A skip adds a further 2 to the advanced PC when its condition holds (R77, R83). -/
def State.skipIf (s : State) (c : Bool) : State := if c then s.jump (s.pc + 2#12) else s

/-- The instruction word at PC: high byte from PC, low byte from PC + 1 modulo 4096 (R44, R76). -/
def State.fetchWord (s : State) : Word := joinBytes (s.memRead s.pc) (s.memRead (s.pc + 1#12))

/-- The fetch advance, `PC <- (a + 2) mod 4096` (R77). -/
def State.fetchAdvance (s : State) : State := s.jump (s.pc + 2#12)

/-! ### The call stack (R23) -/

/-- `STACK[SP] <- PC; SP <- SP + 1`, for a stack with room. -/
def State.push (s : State) (h : s.sp.val < 16) : State :=
  { s with stack := s.stack.set s.sp.val s.pc h, sp := ⟨s.sp.val + 1, Nat.succ_lt_succ h⟩ }

/-- `STACK[SP - 1]`, the most recent entry of a stack that is not empty. -/
def State.top (s : State) (h : 0 < s.sp.val) : Addr := s.stack[s.sp.val - 1]'(by have := s.sp.isLt; omega)

/-- `SP <- SP - 1`, for a stack that is not empty; the popped entry keeps its value (R24). -/
def State.pop (s : State) (h : 0 < s.sp.val) : State :=
  { s with pc := s.top h, sp := ⟨s.sp.val - 1, by have := s.sp.isLt; omega⟩ }

/-! ### The halted state (60_exceptions.md) -/

/-- FAULT_CODE of a condition (R125, D11). -/
def Condition.code : Condition → BitVec 2
  | .stackOverflow => 1#2
  | .stackUnderflow => 2#2
  | .invalidKeyIndex => 3#2

/-- Fault entry (R129): `FAULT_CODE <- code(F); FAULT_PC <- a; HALTED <- 1; tone <- 0`; the fetch advance stands and every other piece
of state keeps its value. -/
def State.raise (s : State) (f : Condition) : State :=
  { s with faultCode := f.code, faultPc := s.instrAddr, halted := true, tone := false }

/-- Asserting `rst` (R142), the only return from the halted state (R131): every piece of the block's state to its reset value. The
inputs to come are the environment's and stay (log 13). -/
def State.assertRst (s : State) : State := { State.reset with inputs := s.inputs, polls := s.polls }

/-- Two bytes put where the next fetch reads them, in a machine that is not halted (log 12). -/
def State.placeWord (s : State) (hi lo : Byte) : State :=
  { (s.memWrite s.pc hi).memWrite (s.pc + 1#12) lo with halted := false }

end Sys2Proof.Machine
end

