-- ==== Sys2Proof/Machine/Operands.lean ====
section
/-! DEFINITION. Sys2Proof/Machine/Operands.lean: the operand forms (00_scope.md R12, 30_encoding.md R62): a register as an address addend,
the glyph address, the decimal digits, the key index check and the least pressed key. -/
namespace Sys2Proof.Machine

/-- `V[r]` as an addend of an address: unsigned, never sign-extended (R9). -/
def State.regAddr (s : State) (r : Reg) : Addr := (s.getV r).setWidth 12

/-- The start of the glyph of a digit, `(V * 5) mod 4096`, not masked (43_memory_sprites.md R109; 20_memory.md R48). -/
def glyphAddr (b : Byte) : Addr := b.setWidth 12 * 5#12

/-- `v div 100` (R110). -/
def hundreds (b : Byte) : Byte := BitVec.ofNat 8 (b.toNat / 100)
/-- `(v div 10) mod 10` (R110). -/
def tens (b : Byte) : Byte := BitVec.ofNat 8 (b.toNat / 10 % 10)
/-- `v mod 10` (R110). -/
def ones (b : Byte) : Byte := BitVec.ofNat 8 (b.toNat % 10)

/-- `keyidx(v)`: the index itself when v ≤ 15, else InvalidKeyIndex (44_timers_keys.md R118, D10; log 16). -/
def keyIndex (b : Byte) : Except Condition (Fin 16) :=
  if h : b.toNat < 16 then .ok ⟨b.toNat, h⟩ else .error .invalidKeyIndex

/-- `KEY[k]` (R30). -/
def State.keyDown (s : State) (k : Nat) : Bool := s.key.getLsbD k

/-- The least pressed key at or above `16 - n`, scanning upwards. -/
def leastKeyFrom (keys : Keypad) : Nat → Option Byte
  | 0 => none
  | n + 1 => if keys.getLsbD (15 - n) then some (BitVec.ofNat 8 (15 - n)) else leastKeyFrom keys n

/-- The least k with `KEY[k] = 1`, if any key is pressed (44_timers_keys.md R121, D13; log 17). -/
def leastKey (keys : Keypad) : Option Byte := leastKeyFrom keys 16

end Sys2Proof.Machine
end

