-- ==== Sys2Proof/Machine/Flags.lean ====
section
/-! DEFINITION. Sys2Proof/Machine/Flags.lean: every flag computation (10_state.md R39) and the order of the result and flag writes
(42_data_arith.md R93). -/
namespace Sys2Proof.Machine

/-- A flag as VF holds it: 1 or 0 (R9 `bool`). -/
def flagByte (c : Bool) : Byte := if c then 1#8 else 0#8

/-- Carry of ADD Vx, Vy: the unwrapped sum exceeds 255 (R100). -/
def carry (p q : Byte) : Bool := decide (p.toNat + q.toNat > 255)

/-- The flag of SUB and SUBN: the minuend is strictly greater than the subtrahend, not the conventional borrow (R101, R102). -/
def greater (minuend subtrahend : Byte) : Bool := decide (minuend.toNat > subtrahend.toNat)

/-- The bit SHR shifts out (R103). -/
def lowBit (p : Byte) : Bool := p.getLsbD 0

/-- The bit SHL shifts out (R104). -/
def highBit (p : Byte) : Bool := p.getLsbD 7

/-- A result into V[x] and then a flag into VF: the flag is written last, so for x = 0xF VF ends holding the flag (R93, D7; log 15). -/
def State.setResultFlag (s : State) (x : Reg) (result : Byte) (flag : Bool) : State :=
  (s.setV x result).setV regF (flagByte flag)

end Sys2Proof.Machine
end

