-- ==== Sys2Proof/Machine/ControlFlow.lean ====
section
/-! DEFINITION. Sys2Proof/Machine/ControlFlow.lean: the meanings of spec/41_control_flow.md. On entry PC is already (a + 2) mod 4096
(40_cycle.md R77, R83). -/
namespace Sys2Proof.Machine

/-- JP nnn (R85). -/
def execJp (nnn : Addr) (s : State) : Result := .next (s.jump nnn)

/-- CALL nnn (R86): StackOverflow at capacity, before any write. -/
def execCall (nnn : Addr) (s : State) : Result :=
  .next (if h : s.sp.val < 16 then (s.push h).jump nnn else s.raise .stackOverflow)

/-- RET (R87): StackUnderflow when the stack is empty, before any write. -/
def execRet (s : State) : Result :=
  .next (if h : 0 < s.sp.val then s.pop h else s.raise .stackUnderflow)

/-- SE Vx, kk (R88). -/
def execSeVxKk (x : Reg) (kk : Byte) (s : State) : Result := .next (s.skipIf (s.getV x == kk))

/-- SNE Vx, kk (R89). -/
def execSneVxKk (x : Reg) (kk : Byte) (s : State) : Result := .next (s.skipIf (s.getV x != kk))

/-- SE Vx, Vy (R90). -/
def execSeVxVy (x y : Reg) (s : State) : Result := .next (s.skipIf (s.getV x == s.getV y))

/-- SNE Vx, Vy (R91). -/
def execSneVxVy (x y : Reg) (s : State) : Result := .next (s.skipIf (s.getV x != s.getV y))

/-- JP V0, nnn (R92): the register is always V0. -/
def execJpV0Nnn (nnn : Addr) (s : State) : Result := .next (s.jump (nnn + s.regAddr 0#4))

end Sys2Proof.Machine
end

