-- ==== Sys2Proof/Machine/DataArith.lean ====
section
/-! DEFINITION. Sys2Proof/Machine/DataArith.lean: the meanings of spec/42_data_arith.md. All operands are read before any register is
written, and a flag is written after the result (R93). None changes PC and none raises a condition. -/
namespace Sys2Proof.Machine

/-- LD Vx, kk (R94). -/
def execLdVxKk (x : Reg) (kk : Byte) (s : State) : Result := .next (s.setV x kk)

/-- LD Vx, Vy (R95). -/
def execLdVxVy (x y : Reg) (s : State) : Result := .next (s.setV x (s.getV y))

/-- OR Vx, Vy (R96). -/
def execOrVxVy (x y : Reg) (s : State) : Result := .next (s.setV x (s.getV x ||| s.getV y))

/-- AND Vx, Vy (R97). -/
def execAndVxVy (x y : Reg) (s : State) : Result := .next (s.setV x (s.getV x &&& s.getV y))

/-- XOR Vx, Vy (R98). -/
def execXorVxVy (x y : Reg) (s : State) : Result := .next (s.setV x (s.getV x ^^^ s.getV y))

/-- ADD Vx, kk (R99): no flag. -/
def execAddVxKk (x : Reg) (kk : Byte) (s : State) : Result := .next (s.setV x (s.getV x + kk))

/-- ADD Vx, Vy (R100): VF is the carry. -/
def execAddVxVy (x y : Reg) (s : State) : Result :=
  .next (s.setResultFlag x (s.getV x + s.getV y) (carry (s.getV x) (s.getV y)))

/-- SUB Vx, Vy (R101): V[x] is the minuend. -/
def execSubVxVy (x y : Reg) (s : State) : Result :=
  .next (s.setResultFlag x (s.getV x - s.getV y) (greater (s.getV x) (s.getV y)))

/-- SUBN Vx, Vy (R102): V[y] is the minuend. -/
def execSubnVxVy (x y : Reg) (s : State) : Result :=
  .next (s.setResultFlag x (s.getV y - s.getV x) (greater (s.getV y) (s.getV x)))

/-- SHR Vx {, Vy} (R103): the y field is ignored. -/
def execShrVx (x : Reg) (s : State) : Result := .next (s.setResultFlag x (s.getV x >>> 1) (lowBit (s.getV x)))

/-- SHL Vx {, Vy} (R104): the y field is ignored. -/
def execShlVx (x : Reg) (s : State) : Result := .next (s.setResultFlag x (s.getV x <<< 1) (highBit (s.getV x)))

/-- ADD I, Vx (R105): modulo 4096, VF not written (D27). -/
def execAddIVx (x : Reg) (s : State) : Result := .next { s with i := s.i + s.regAddr x }

/-- RND Vx, kk (R106): the byte on the `rnd` input in this tick, masked. -/
def execRndVxKk (x : Reg) (kk : Byte) (s : State) : Result := .next (s.setV x (s.rnd &&& kk))

end Sys2Proof.Machine
end

