-- ==== Sys2Proof/Machine/Display.lean ====
section
/-! DEFINITION. Sys2Proof/Machine/Display.lean: the meaning of spec/45_display.md's one instruction. -/
namespace Sys2Proof.Machine

/-- CLS (R122): every pixel unset, DIRTY set even when the screen was clear. -/
def execCls (s : State) : Result := .next { s with fb := 0#2048, dirty := true }

end Sys2Proof.Machine
end

