-- ==== Sys2Proof/Machine/MemorySprites.lean ====
section
/-! DEFINITION. Sys2Proof/Machine/MemorySprites.lean: the meanings of spec/43_memory_sprites.md. None changes PC, none but the three
that set I changes I, and none raises a condition. -/
namespace Sys2Proof.Machine

/-- LD I, nnn (R108). -/
def execLdINnn (nnn : Addr) (s : State) : Result := .next { s with i := nnn }

/-- LD F, Vx (R109). -/
def execLdFVx (x : Reg) (s : State) : Result := .next { s with i := glyphAddr (s.getV x) }

/-- LD B, Vx (R110): hundreds, tens and ones at I, I + 1 and I + 2. -/
def execLdBVx (x : Reg) (s : State) : Result :=
  let b := s.getV x
  .next (((s.memWrite (s.indexed 0) (hundreds b)).memWrite (s.indexed 1) (tens b)).memWrite (s.indexed 2) (ones b))

/-- LD [I], Vx (R111): V0 to Vx, inclusive of x. -/
def execLdMemVx (x : Reg) (s : State) : Result := .next (State.storeRegs (x.toNat + 1) s)

/-- LD Vx, [I] (R112): V0 to Vx, inclusive of x. -/
def execLdVxMem (x : Reg) (s : State) : Result := .next (State.loadRegs (x.toNat + 1) s)

/-- DRW Vx, Vy, n (R113): the coordinates are read before VF is written; n = 0 draws nothing, clears VF and sets DIRTY (D15). -/
def execDrw (x y : Reg) (n : Nibble) (s : State) : Result :=
  let c := s.drawRows (s.getV x) (s.getV y) n.toNat (s.fb, false)
  .next { s.setV regF (flagByte c.2) with fb := c.1, dirty := true }

end Sys2Proof.Machine
end

