-- ==== Sys2Proof/Machine/Tick.lean ====
section
/-! DEFINITION. Sys2Proof/Machine/Tick.lean: the steps of a tick before its instruction (40_cycle.md R73 to R75, 60_exceptions.md R135,
R136), the tick of a halted block (R80), the inputs, and the NOP tag (R82). -/
namespace Sys2Proof.Machine

/-! ### The inputs of the next poll (10_state.md R31; log 3) -/

/-- What the next poll returns: the next queued input, or free values where none is queued. -/
def State.nextInput (s : State) : TickInput :=
  match s.inputs with
  | inp :: _ => inp
  | [] => { keys := Config.freeKeys s.polls, rnd := Config.freeRnd s.polls }

/-- The inputs after one poll. -/
def State.takeInput (s : State) : State := { s with inputs := s.inputs.tail, polls := s.polls + 1 }

/-! ### Steps 1 to 4 (R73) -/

/-- Step 1: the keypad snapshot is "replaced wholesale" (R74); the random byte of the tick is on its input (R31). The first tick closes
the boot phase (70_reset_and_hazards.md R143); that it does so in this step is the model's DESIGN CHOICE (log 7). -/
def State.pollStep (s : State) (inp : TickInput) : State := { s with key := inp.keys, rnd := inp.rnd, booting := false }

/-- Step 2: a render of the whole framebuffer when DIRTY is 1, and DIRTY back to 0 (R75). -/
def State.renderStep (s : State) : State :=
  { s with render := if s.dirty then some s.fb else none, dirty := false }

/-- One timer's decrement: by one while non-zero, never wrapping (R135). -/
def countDown (t : Byte) : Byte := if t = 0#8 then 0#8 else t - 1#8

/-- Step 3: both timers, independently (R135). -/
def State.timerStep (s : State) : State := { s with dt := countDown s.dt, st := countDown s.st }

/-- Step 4: the tone follows ST as step 3 left it (R136). -/
def State.toneStep (s : State) : State := { s with tone := s.st != 0#8 }

/-- Steps 1 to 4 in their order (R73). -/
def State.beginTick (s : State) (inp : TickInput) : State := (s.pollStep inp).renderStep.timerStep.toneStep

/-- A tick while HALTED = 1 performs nothing and emits no render request (R80; log 10). -/
def State.haltedTick (s : State) : State := { s with render := none }

/-- NOP tag: nothing beyond the fetch advance (R82). -/
def execNop (s : State) : Result := .next s

end Sys2Proof.Machine
end

