-- ==== Sys2Proof/Machine/TimersKeys.lean ====
section
/-! DEFINITION. Sys2Proof/Machine/TimersKeys.lean: the meanings of spec/44_timers_keys.md. -/
namespace Sys2Proof.Machine

/-- LD Vx, DT (R115). -/
def execLdVxDt (x : Reg) (s : State) : Result := .next (s.setV x s.dt)

/-- LD DT, Vx (R116). -/
def execLdDtVx (x : Reg) (s : State) : Result := .next { s with dt := s.getV x }

/-- LD ST, Vx (R117): the tone changes only at step 4 of the next tick. -/
def execLdStVx (x : Reg) (s : State) : Result := .next { s with st := s.getV x }

/-- SKP Vx (R119): InvalidKeyIndex before the keypad is read (R118). -/
def execSkpVx (x : Reg) (s : State) : Result :=
  .next (match keyIndex (s.getV x) with
    | .ok k => s.skipIf (s.keyDown k)
    | .error f => s.raise f)

/-- SKNP Vx (R120): InvalidKeyIndex before the keypad is read (R118). -/
def execSknpVx (x : Reg) (s : State) : Result :=
  .next (match keyIndex (s.getV x) with
    | .ok k => s.skipIf (!s.keyDown k)
    | .error f => s.raise f)

/-- LD Vx, K (R121): the least pressed key, or PC back at the instruction's own address. -/
def execLdVxK (x : Reg) (s : State) : Result :=
  .next (match leastKey s.key with
    | some k => s.setV x k
    | none => s.jump s.instrAddr)

end Sys2Proof.Machine
end

