-- ==== Sys2Proof/Machine/Interface.lean ====
section
/-! DEFINITION. Sys2Proof/Machine/Interface.lean: the block's other ports (10_state.md R31 to R36): the ROM load port and the image load
made of it, the end of a run, and the outputs as values. -/
namespace Sys2Proof.Machine

/-- The ROM load port (R34): `MEM[load_addr] <- load_data` when `load_we` is 1 and `load_addr` ≥ 0x200, in the boot phase only. -/
def State.loadPort (s : State) (we : Bool) (addr : Addr) (data : Byte) : State :=
  if s.booting && we && decide (Config.romBase ≤ addr.toNat) then s.memWrite addr data else s

/-- The bytes of an image from address `a` upwards; a byte at or beyond address 4096 is dropped (20_memory.md R49). -/
def State.loadBytes : State → Nat → List Byte → State
  | s, _, [] => s
  | s, a, b :: bs =>
    if a < Config.memSize then (s.loadPort true (BitVec.ofNat 12 a) b).loadBytes (a + 1) bs else s

/-- The boot load of a ROM image, "loaded verbatim starting at memory address 0x200" (R49, R143; log 12). -/
def State.loadRom (s : State) (rom : List Byte) : State := s.loadBytes Config.romBase rom

/-- The last poll of a run, the one that returned `quit_requested` (R36, R74, D23): step 1 as in every running tick, none of steps 2 to 5,
and the tone stops. DESIGN CHOICE (logs 7, 14): the tick cut short so is a tick, so its step 1 closes the boot phase if it is the first
(R143), and its byte stands on the `rnd` input; no rule says at which step the phase closes. -/
def State.quitPoll (s : State) (inp : TickInput) : State :=
  if s.halted then s else { s.pollStep inp with render := none, tone := false }

/-- `render_valid` of the last tick (R32). -/
def State.renderValid (s : State) : Bool := s.render.isSome

end Sys2Proof.Machine
end

