-- ==== Sys2Proof/Machine/Step.lean ====
section
/-! DEFINITION. Sys2Proof/Machine/Step.lean: the tick (40_cycle.md R73) as the machine's step, and the placing of a word where the next
step fetches it. -/
namespace Sys2Proof.Machine

/-- `tick(keys, rnd)` of R73: nothing while halted (R80); else steps 1 to 4, then fetch, advance, decode and execute (R76 to R79). -/
def tickWith (inp : TickInput) (s : State) : Host.Outcome State Fault Refusal :=
  if s.halted then .next s.haltedTick
  else exec (decodeWord (s.beginTick inp).fetchWord) (s.beginTick inp).fetchAdvance

/-- One `tick` strobe (R31, R35). A halted block makes no poll, so it takes no input (R80; log 10). -/
def step (s : State) : Host.Outcome State Fault Refusal :=
  if s.halted then tickWith s.nextInput s else tickWith s.nextInput s.takeInput

/-- The instruction whose bits the opcode table numbers as `w`, stored big-endian where the next step fetches (R44, R76; log 12). -/
def State.withFetchWord (s : State) (nbits w : Nat) : State :=
  s.placeWord (BitVec.ofNat 8 (w % 2 ^ nbits / 256)) (BitVec.ofNat 8 (w % 2 ^ nbits))

end Sys2Proof.Machine
end

