-- ==== Sys2Proof/Machine/Environment.lean ====
section
/-! DEFINITION. Sys2Proof/Machine/Environment.lean: everything the environment can do to the block (10_state.md R31, R33, R36) as a list
of events, and a run over them. -/
namespace Sys2Proof.Machine

/-- One action of the environment. -/
inductive Event where
  /-- One `tick` strobe with these keys and this random byte (R31). -/
  | tick (inp : TickInput)
  /-- `rst` asserted (R142). -/
  | rst
  /-- One cycle of the ROM load port (R34). -/
  | load (we : Bool) (addr : Addr) (data : Byte)
  deriving DecidableEq, Repr

/-- What one event does. "A collaborator can change no state of the block except through the inputs of rule R31" (R33). -/
def Event.apply : Event → State → Host.Outcome State Fault Refusal
  | .tick inp, s => tickWith inp s
  | .rst, s => .next s.assertRst
  | .load we addr data, s => .next (s.loadPort we addr data)

/-- The events in their order. -/
def runEvents : List Event → State → Host.Outcome State Fault Refusal
  | [], s => .next s
  | e :: es, s =>
    match e.apply s with
    | .next s' => runEvents es s'
    | .fault r => .fault r
    | .refused r => .refused r

end Sys2Proof.Machine
end

