-- ==== Sys2Proof/Safety.lean ====
section
/-! DEFINITION. Sys2Proof/Safety.lean: what a good state is (the invariant of the block) and what a safe run is, in the terms the
statements use. -/
namespace Sys2Proof.Machine

/-- The instruction a word at an address decodes to (30_encoding.md R63, 40_cycle.md R76). -/
def State.instrAt (s : State) (a : Addr) : Instr := decodeWord (s.jump a).fetchWord

/-- Why the block halted, as FAULT_CODE says it (60_exceptions.md R125): the instruction at FAULT_PC is one that raises the condition, and
its cause still holds, since the faulting instruction had no effect (R129, R130). -/
def State.causeHolds (s : State) : Condition → Prop
  | .stackOverflow => s.sp.val = 16 ∧ ∃ nnn, s.instrAt s.faultPc = .call nnn
  | .stackUnderflow => s.sp.val = 0 ∧ s.instrAt s.faultPc = .ret
  | .invalidKeyIndex =>
    ∃ x, 15 < (s.getV x).toNat ∧ (s.instrAt s.faultPc = .skpVx x ∨ s.instrAt s.faultPc = .sknpVx x)

/-- What every state that a run reaches has. -/
structure State.Inv (s : State) : Prop where
  /-- Memory keeps its canonical form. -/
  canonical : s.mem.wf
  /-- A running block has no fault recorded (10_state.md R37, R41). -/
  running : s.halted = false → s.faultCode = 0#2 ∧ s.faultPc = 0#12
  /-- A halted block records one condition, whose cause holds at FAULT_PC (R125, R129). -/
  faulted : s.halted = true → ∃ f : Condition, s.faultCode = f.code ∧ s.causeHolds f
  /-- In a halted block the fetch advance stands, the tone is off and the boot phase is over (R129, R143). -/
  stopped : s.halted = true → s.pc = s.faultPc + 2#12 ∧ s.tone = false ∧ s.booting = false
  /-- While the boot phase is open only the ROM area differs from reset (R34, R142, R143). -/
  boot : s.booting = true →
    { s with mem := [], inputs := [], polls := 0 } = State.reset ∧
    ∀ a : Addr, a.toNat < Config.romBase → s.memRead a = unlistedByte a.toNat

/-! ### Frames: what may differ between the state before and after an instruction -/

/-- Nothing but V registers differs, and of those only the ones `dst` names; every byte of memory reads as before. -/
def OnlyRegs (dst : Reg → Prop) (s t : State) : Prop :=
  t = { s with v := t.v } ∧ (∀ r, ¬ dst r → t.getV r = s.getV r) ∧ ∀ a, t.memRead a = s.memRead a

/-- Nothing but PC differs; every register and every byte of memory reads as before. -/
def OnlyPc (s t : State) : Prop :=
  t = { s with pc := t.pc } ∧ (∀ r, t.getV r = s.getV r) ∧ ∀ a, t.memRead a = s.memRead a

/-- Nothing but I differs; every register and every byte of memory reads as before. -/
def OnlyIndex (s t : State) : Prop :=
  t = { s with i := t.i } ∧ (∀ r, t.getV r = s.getV r) ∧ ∀ a, t.memRead a = s.memRead a

/-- Nothing but memory differs, and of that only the bytes `stored` names. -/
def OnlyMem (stored : Addr → Prop) (s t : State) : Prop :=
  t = { s with mem := t.mem } ∧ (∀ r, t.getV r = s.getV r) ∧ ∀ a, ¬ stored a → t.memRead a = s.memRead a

/-- An outcome with its next state changed: what comparing two runs of one instruction uses. -/
def onNext (g : State → State) : Result → Result
  | .next t => .next (g t)
  | .fault r => .fault r
  | .refused r => .refused r

/-- CLS or DRW, the two instructions that write the framebuffer (10_state.md R28, R29). -/
def drawsScreen : Instr → Bool
  | .cls => true
  | .drw _ _ _ => true
  | _ => false

/-- V[r] is among the registers an instruction writes: the "written by" column of 10_state.md R19. -/
abbrev writesReg : Instr → Reg → Prop
  | .ldVxKk x _, r | .addVxKk x _, r | .rndVxKk x _, r | .ldVxDt x, r | .ldVxK x, r => r = x
  | .ldVxVy x _, r | .orVxVy x _, r | .andVxVy x _, r | .xorVxVy x _, r => r = x
  | .addVxVy x _, r | .subVxVy x _, r | .subnVxVy x _, r | .shrVx x _, r | .shlVx x _, r => r = x ∨ r = 0xF#4
  | .ldVxMem x, r => r.toNat ≤ x.toNat
  | .drw _ _ _, r => r = 0xF#4
  | .cls, _ | .ret, _ | .jp _, _ | .call _, _ | .seVxKk _ _, _ | .sneVxKk _ _, _ | .seVxVy _ _, _ | .sneVxVy _ _, _
  | .ldINnn _, _ | .jpV0Nnn _, _ | .skpVx _, _ | .sknpVx _, _ | .ldDtVx _, _ | .ldStVx _, _ | .addIVx _, _ | .ldFVx _, _
  | .ldBVx _, _ | .ldMemVx _, _ | .nop _, _ => False

/-- An instruction that may move PC off the fetch advance: a jump, CALL, RET, a skip, or the wait of LD Vx, K (40_cycle.md R77). -/
def writesPc : Instr → Bool
  | .jp _ | .call _ | .ret | .jpV0Nnn _ | .seVxKk _ _ | .sneVxKk _ _ | .seVxVy _ _ | .sneVxVy _ _ | .skpVx _ | .sknpVx _
  | .ldVxK _ => true
  | .cls | .ldVxKk _ _ | .addVxKk _ _ | .ldVxVy _ _ | .orVxVy _ _ | .andVxVy _ _ | .xorVxVy _ _ | .addVxVy _ _ | .subVxVy _ _
  | .shrVx _ _ | .subnVxVy _ _ | .shlVx _ _ | .ldINnn _ | .rndVxKk _ _ | .drw _ _ _ | .ldVxDt _ | .ldDtVx _ | .ldStVx _
  | .addIVx _ | .ldFVx _ | .ldBVx _ | .ldMemVx _ | .ldVxMem _ | .nop _ => false

/-- Two states that differ at most in the unoccupied stack entries, those at SP and above (10_state.md R24). -/
def SameButFreeStack (s t : State) : Prop :=
  t = { s with stack := t.stack } ∧ ∀ k (h : k < 16), k < s.sp.val → t.stack[k] = s.stack[k]

/-- A run over these events that does not end halted (60_exceptions.md R129). -/
def SafeRun (es : List Event) (s : State) : Prop := ∃ t, runEvents es s = .next t ∧ t.halted = false

end Sys2Proof.Machine
end

