-- ==== Sys2Proof/WellFormed.lean ====
section
/-! DEFINITION. Sys2Proof/WellFormed.lean: which terms of `Instr` are instructions. Every operand is as wide as its field (R72: `kk` in
0..255, `nnn` in 0..4095, `n` in 0..15), so its range needs no check; what is checked is that the word a NOP tag carries is one of
the words the decoder gives the NOP tag, as 30_encoding.md R69 lists them. -/
namespace Sys2Proof

/-- The words that decode to the NOP tag, R69's list: "`0nnn` except 00E0 and 00EE", "`5xyn` and `9xyn` with n ≠ 0", "`8xyn` with n in
{8,9,A,B,C,D,F}", "`Exkk` with kk not in {9E, A1}", "`Fxkk` with kk not one of the nine F-family values". -/
def nopWord (w : Word) : Bool :=
  (fieldO w == 0x0#4 && !([0x00E0#16, 0x00EE#16].contains w)) ||
  (fieldO w == 0x5#4 && fieldN w != 0#4) ||
  (fieldO w == 0x9#4 && fieldN w != 0#4) ||
  (fieldO w == 0x8#4 && [0x8#4, 0x9#4, 0xA#4, 0xB#4, 0xC#4, 0xD#4, 0xF#4].contains (fieldN w)) ||
  (fieldO w == 0xE#4 && !([0x9E#8, 0xA1#8].contains (fieldKK w))) ||
  (fieldO w == 0xF#4 &&
    !([0x07#8, 0x0A#8, 0x15#8, 0x18#8, 0x1E#8, 0x29#8, 0x33#8, 0x55#8, 0x65#8].contains (fieldKK w)))

/-- Well-formed instructions. -/
def Instr.wf : Instr → Bool
  | .nop w => nopWord w
  | .cls | .ret | .jp _ | .call _ | .seVxKk _ _ | .sneVxKk _ _ | .seVxVy _ _ | .ldVxKk _ _ | .addVxKk _ _ | .ldVxVy _ _
  | .orVxVy _ _ | .andVxVy _ _ | .xorVxVy _ _ | .addVxVy _ _ | .subVxVy _ _ | .shrVx _ _ | .subnVxVy _ _ | .shlVx _ _
  | .sneVxVy _ _ | .ldINnn _ | .jpV0Nnn _ | .rndVxKk _ _ | .drw _ _ _ | .skpVx _ | .sknpVx _ | .ldVxDt _ | .ldVxK _
  | .ldDtVx _ | .ldStVx _ | .addIVx _ | .ldFVx _ | .ldBVx _ | .ldMemVx _ | .ldVxMem _ => true

end Sys2Proof
end

