-- ==== Sys2Proof/Certificates/Slice0/Obligations.lean ====
section
/-! DEFINITION. Sys2Proof/Certificates/Slice0/Obligations.lean: the statements for the provers, each from the numbered rules its docstring
names. A record update `{ s with … }` on the right of an equation is the instruction's frame: every field it does not name, every
register, every flag, every stack entry and every byte of memory is as before. The bit patterns in statements are the conventional
encodings, which the spec supplies from general knowledge (D4; log 1). -/

open Sys2Proof Sys2Proof.Machine

/-! ### Encoding (30_encoding.md) -/

/-- Decoding the bytes of any well-formed instruction gives it back with every operand, and leaves the bytes after it (R44, R60 to R64).
Rests on the map of D4 (log 1). -/
def Obligations.DecodeOfEncodeIsIdentity : Prop :=
  ∀ (i : Instr) (rest : List Byte), i.wf = true → decode (encodeBytes i ++ rest) = .ok (i, rest)

/-- Every word decodes to a well-formed instruction whose encoding is that word: no bit is dropped, no two words share a meaning and no
word is refused (R63, R70, R71). Rests on D4 and D6 (logs 1, 2). -/
def Obligations.EncodeOfDecodeIsIdentity : Prop :=
  ∀ w : Word, (decodeWord w).wf = true ∧ encode (decodeWord w) = w

/-- "The 34 rows above the last are disjoint: no word matches two of them" (R64). -/
def Obligations.OpcodeMapRowsAreDisjoint : Prop :=
  opcodeMap.length = 34 ∧
  ∀ (w : Word), ∀ r ∈ opcodeMap, ∀ r' ∈ opcodeMap, r.covers w = true → r'.covers w = true → r = r'

/-- A word that a row of the map covers decodes to that row's instruction; a word no row covers decodes to the NOP tag (R64, R69, R70). -/
def Obligations.DecoderFollowsOpcodeMap : Prop :=
  ∀ w : Word,
    (∀ r ∈ opcodeMap, r.covers w = true → (decodeWord w).mnemonic = r.mnemonic) ∧
    ((∀ r ∈ opcodeMap, r.covers w = false) → decodeWord w = .nop w)

/-- The words that decode to the NOP tag are exactly R69's list (R65 to R69). The strict matching is the spec's decision D6 (log 2). -/
def Obligations.NopTagWordsAreTheList : Prop :=
  ∀ w : Word, decodeWord w = .nop w ↔
    (w.extractLsb' 12 4 = 0x0#4 ∧ w ≠ 0x00E0#16 ∧ w ≠ 0x00EE#16) ∨
    ((w.extractLsb' 12 4 = 0x5#4 ∨ w.extractLsb' 12 4 = 0x9#4) ∧ w.extractLsb' 0 4 ≠ 0x0#4) ∨
    (w.extractLsb' 12 4 = 0x8#4 ∧
      w.extractLsb' 0 4 ∈ [0x8#4, 0x9#4, 0xA#4, 0xB#4, 0xC#4, 0xD#4, 0xF#4]) ∨
    (w.extractLsb' 12 4 = 0xE#4 ∧ w.extractLsb' 0 8 ∉ [0x9E#8, 0xA1#8]) ∨
    (w.extractLsb' 12 4 = 0xF#4 ∧
      w.extractLsb' 0 8 ∉ [0x07#8, 0x0A#8, 0x15#8, 0x18#8, 0x1E#8, 0x29#8, 0x33#8, 0x55#8, 0x65#8])

/-- Words written out from R64's patterns decode to the instructions they stand for, one of every family. -/
def Obligations.WrittenOutWordsDecode : Prop :=
  decodeWord 0x00E0#16 = .cls ∧ decodeWord 0x00EE#16 = .ret ∧ decodeWord 0x1234#16 = .jp 0x234#12 ∧
  decodeWord 0x3312#16 = .seVxKk 3#4 0x12#8 ∧ decodeWord 0x8AB5#16 = .subVxVy 0xA#4 0xB#4 ∧
  decodeWord 0x8176#16 = .shrVx 1#4 7#4 ∧ decodeWord 0xA300#16 = .ldINnn 0x300#12 ∧
  decodeWord 0xDAB5#16 = .drw 0xA#4 0xB#4 5#4 ∧ decodeWord 0xE29E#16 = .skpVx 2#4 ∧
  decodeWord 0xF30A#16 = .ldVxK 3#4 ∧ decodeWord 0xF265#16 = .ldVxMem 2#4 ∧ decodeWord 0x8018#16 = .nop 0x8018#16

/-! ### The tick (40_cycle.md) -/

/-- A running tick with inputs `keys`, `rnd` is the steps of R73 in their order: keys polled, a render when dirty and the flag cleared,
each timer down by one if non-zero, the tone from the decremented ST, then the instruction at PC on the advanced PC (R73, R74, R76, R77);
a halted tick changes nothing and emits nothing (R80; D12, log 10). `booting := false` is the end of the boot phase (R143; log 7). -/
def Obligations.TickRunsTheStepsInOrder : Prop :=
  ∀ (inp : TickInput) (s : State),
    (s.halted = true → tickWith inp s = .next { s with render := none }) ∧
    (s.halted = false →
      tickWith inp s =
        exec (decodeWord (s.memRead s.pc ++ s.memRead (s.pc + 1#12))) { s with
          key := inp.keys, rnd := inp.rnd, booting := false,
          render := if s.dirty = true then some s.fb else none, dirty := false,
          dt := if s.dt = 0#8 then 0#8 else s.dt - 1#8, st := if s.st = 0#8 then 0#8 else s.st - 1#8,
          tone := decide ((if s.st = 0#8 then 0#8 else s.st - 1#8) ≠ 0#8), pc := s.pc + 2#12 })

/-- When the two bytes at PC decode to a well-formed instruction i, a step of a running machine is exec of i on the state that the
housekeeping of R73 and the fetch advance leave, with the keys and the random byte of the next input (R31, R76 to R79; logs 3, 7). -/
def Obligations.StepRunsTheDecodedInstruction : Prop :=
  ∀ (s : State) (i : Instr), s.halted = false →
    decode [s.memRead s.pc, s.memRead (s.pc + 1#12)] = .ok (i, []) → i.wf = true →
    step s = exec i { s with
      inputs := s.inputs.tail, polls := s.polls + 1,
      key := s.nextInput.keys, rnd := s.nextInput.rnd, booting := false,
      render := if s.dirty = true then some s.fb else none, dirty := false,
      dt := if s.dt = 0#8 then 0#8 else s.dt - 1#8, st := if s.st = 0#8 then 0#8 else s.st - 1#8,
      tone := decide ((if s.st = 0#8 then 0#8 else s.st - 1#8) ≠ 0#8), pc := s.pc + 2#12 }

/-- The model's own input convention (log 3): a running step takes the head of the queued inputs, or free values where none is queued; a
halted step takes none. -/
def Obligations.StepTakesOneInput : Prop :=
  ∀ (s : State),
    (∀ inp rest, s.halted = false → s.inputs = inp :: rest →
      step s = tickWith inp { s with inputs := rest, polls := s.polls + 1 }) ∧
    (s.halted = false → s.inputs = [] →
      step s = tickWith ⟨Config.freeKeys s.polls, Config.freeRnd s.polls⟩ { s with polls := s.polls + 1 }) ∧
    (s.halted = true → step s = .next { s with render := none })

/-- R135, whole: step 3 of every running tick decrements each timer while non-zero, whatever the instruction (a waiting LD Vx, K too), and
before it (LD Vx, DT reads the decremented DT); only LD DT, Vx and LD ST, Vx then write their timer. -/
def Obligations.TimersCountDownEveryTick : Prop :=
  ∀ (inp : TickInput) (s : State), s.halted = false →
    ∃ t, tickWith inp s = .next t ∧
      ((∀ x, s.instrAt s.pc ≠ .ldDtVx x) → t.dt.toNat = s.dt.toNat - 1) ∧
      (∀ x, s.instrAt s.pc = .ldDtVx x → t.dt = s.getV x) ∧
      ((∀ x, s.instrAt s.pc ≠ .ldStVx x) → t.st.toNat = s.st.toNat - 1) ∧
      (∀ x, s.instrAt s.pc = .ldStVx x → t.st = s.getV x) ∧
      (∀ x, s.instrAt s.pc = .ldVxDt x → (t.getV x).toNat = s.dt.toNat - 1)

/-- After a running tick the tone is on exactly when ST was non-zero after step 3 and the tick did not halt; a halted tick leaves the
level (R129, R136, R80). The level output is the spec's own rendering (D1), and so is that a condition halts (D9, D12; logs 9, 10). -/
def Obligations.ToneFollowsTheSoundTimer : Prop :=
  ∀ (inp : TickInput) (s : State),
    (s.halted = false →
      ∃ t, tickWith inp s = .next t ∧ (t.tone = true ↔ 2 ≤ s.st.toNat ∧ t.halted = false)) ∧
    (s.halted = true → ∃ t, tickWith inp s = .next t ∧ t.tone = s.tone)

/-- R29, whole: DRW and CLS set DIRTY; step 2 clears it; no other instruction writes it and none reads it. -/
def Obligations.DirtyFlagHasTwoWriters : Prop :=
  (∀ (i : Instr) (s : State), ∃ t, exec i s = .next t ∧ t.dirty = (drawsScreen i || s.dirty)) ∧
  (∀ (inp : TickInput) (s : State), s.halted = false →
    ∃ t, tickWith inp s = .next t ∧ t.dirty = drawsScreen (s.instrAt s.pc) ∧
      t.render = if s.dirty = true then some s.fb else none) ∧
  (∀ (i : Instr) (s : State) (d : Bool),
    exec i { s with dirty := d } = onNext (fun t => { t with dirty := drawsScreen i || d }) (exec i s))

/-- A framebuffer change in a tick is rendered at step 2 of the next tick, and nothing else is (R75, R152). -/
def Obligations.FramebufferChangeIsRenderedNextTick : Prop :=
  ∀ (inp inp' : TickInput) (s t : State), s.halted = false → tickWith inp s = .next t → t.halted = false →
    ∃ u, tickWith inp' t = .next u ∧
      u.render = if drawsScreen (s.instrAt s.pc) = true then some t.fb else none

/-- R30, whole: KEY is replaced wholesale at step 1 of a running tick and by nothing else; no instruction but SKP, SKNP and LD Vx, K
reads it. -/
def Obligations.KeypadSnapshotIsReplacedWholesale : Prop :=
  (∀ (inp : TickInput) (s : State), s.halted = false →
    ∃ t, tickWith inp s = .next t ∧ ∀ k, k < 16 → t.key.getLsbD k = inp.keys.getLsbD k) ∧
  (∀ (i : Instr) (s : State), ∃ t, exec i s = .next t ∧ t.key = s.key) ∧
  (∀ (i : Instr) (s : State) (keys : Keypad),
    (∀ x, i ≠ .skpVx x ∧ i ≠ .sknpVx x ∧ i ≠ .ldVxK x) →
    exec i { s with key := keys } = onNext (fun t => { t with key := keys }) (exec i s))

/-! ### Conditions and the halted state (60_exceptions.md) -/

/-- The faulting instruction has no effect; FAULT_CODE, FAULT_PC and HALTED are written and the tone goes off (R86, R87, R118, R125 to
R129). Halting, the codes and the key index check are the spec's decisions D9, D10, D11 (logs 9, 16). -/
def Obligations.FaultEntryOfEachCondition : Prop :=
  ∀ (s : State),
    (∀ nnn, s.sp.val = 16 → exec (.call nnn) s =
      .next { s with faultCode := 1#2, faultPc := s.pc - 2#12, halted := true, tone := false }) ∧
    (s.sp.val = 0 → exec .ret s =
      .next { s with faultCode := 2#2, faultPc := s.pc - 2#12, halted := true, tone := false }) ∧
    (∀ x, 15 < (s.getV x).toNat → exec (.skpVx x) s =
      .next { s with faultCode := 3#2, faultPc := s.pc - 2#12, halted := true, tone := false }) ∧
    (∀ x, 15 < (s.getV x).toNat → exec (.sknpVx x) s =
      .next { s with faultCode := 3#2, faultPc := s.pc - 2#12, halted := true, tone := false })

/-- The instruction of a running tick halts the block exactly in the cases of R125: CALL with SP = 16, RET with SP = 0, SKP or SKNP on a
register above 15; no unknown word, fetch or memory access does (R124, R132). That a condition halts the block is the spec's decision D9
(R129; log 9); that SKP and SKNP above 15 raise one is its decision D10 (R118, R128; log 16). -/
def Obligations.OnlyTheThreeConditionsHalt : Prop :=
  ∀ (inp : TickInput) (s : State), s.halted = false →
    ∃ t, tickWith inp s = .next t ∧
      (t.halted = true ↔
        ((∃ nnn, s.instrAt s.pc = .call nnn) ∧ s.sp.val = 16) ∨ (s.instrAt s.pc = .ret ∧ s.sp.val = 0) ∨
        ∃ x, (s.instrAt s.pc = .skpVx x ∨ s.instrAt s.pc = .sknpVx x) ∧ 15 < (s.getV x).toNat)

/-- A condition is precise (R129, R130): FAULT_PC is the address the word was fetched from, PC the one after it; steps 1 to 4 took place;
nothing else changed. Halting and the fault registers are the spec's decisions D9 and D11 (log 9). -/
def Obligations.FaultEntryIsPrecise : Prop :=
  ∀ (inp : TickInput) (s t : State), s.halted = false → tickWith inp s = .next t → t.halted = true →
    t.faultPc = s.pc ∧ t.faultCode ≠ 0#2 ∧
    t = { s with
      faultCode := t.faultCode, faultPc := s.pc, halted := true, tone := false, pc := s.pc + 2#12,
      key := inp.keys, rnd := inp.rnd, booting := false, render := if s.dirty = true then some s.fb else none,
      dirty := false, dt := if s.dt = 0#8 then 0#8 else s.dt - 1#8, st := if s.st = 0#8 then 0#8 else s.st - 1#8 }

/-- "There is no return from the halted state other than reset" (R131, R80, R142): over any ticks and load cycles a halted block past its
boot phase keeps every piece of state, and `rst` puts every piece at its reset value. Staying halted is the spec's decision D12 (logs 9,
10); what `rst` restores is D16, and that it keeps the inputs to come is the model's choice (logs 5, 13). -/
def Obligations.OnlyResetLeavesTheHaltedState : Prop :=
  (∀ (es : List Event) (s : State), s.halted = true → s.booting = false → (∀ e ∈ es, e ≠ .rst) →
    ∃ t, runEvents es s = .next t ∧ { t with render := none } = { s with render := none }) ∧
  (∀ (s : State), ∃ t, Event.apply .rst s = .next t ∧ t.halted = false ∧
    t = { State.reset with inputs := s.inputs, polls := s.polls })

/-- No instruction reads the fault status (R37, R123), registers that are the spec's own (D9, D11; log 9): with another FAULT_CODE and
FAULT_PC an instruction gives the same state up to those two registers. -/
def Obligations.NoInstructionReadsTheFaultStatus : Prop :=
  ∀ (i : Instr) (s : State) (c : BitVec 2) (p : Addr),
    ∃ t t', exec i s = .next t ∧ exec i { s with faultCode := c, faultPc := p } = .next t' ∧
      { t' with faultCode := t.faultCode, faultPc := t.faultPc } = t

/-- Every word at every state has a defined outcome (R16, R70, R134): no instruction, tick or step faults or refuses. That halting is
answered as a next state is the model's choice (log 9), and so is where `step` takes its inputs (log 3); which ticks halt is the
statement OnlyTheThreeConditionsHalt. -/
def Obligations.EveryInstructionAndTickCompletes : Prop :=
  (∀ (i : Instr) (s : State), ∃ t, exec i s = .next t) ∧
  (∀ (inp : TickInput) (s : State), ∃ t, tickWith inp s = .next t) ∧
  ∀ (s : State), ∃ t, step s = .next t

/-! ### Control flow (41_control_flow.md) -/

/-- R85: `1nnn` sets PC to nnn and changes nothing else. -/
def Obligations.JpSetsPc : Prop :=
  ∀ (nnn : Addr) (s : State),
    decodeWord (0x1#4 ++ nnn : BitVec 16) = .jp nnn ∧ exec (.jp nnn) s = .next { s with pc := nnn }

/-- R86 with room on the stack: `2nnn` pushes the advanced PC, increments SP and jumps; the 16th nested call is among them. -/
def Obligations.CallPushesAndJumps : Prop :=
  ∀ (nnn : Addr) (s : State),
    decodeWord (0x2#4 ++ nnn : BitVec 16) = .call nnn ∧
    (s.sp.val < 16 → ∃ t, exec (.call nnn) s = .next t ∧
      t.pc = nnn ∧ t.sp.val = s.sp.val + 1 ∧
      (∀ k (h : k < 16), t.stack[k] = if k = s.sp.val then s.pc else s.stack[k]) ∧
      t = { s with pc := t.pc, sp := t.sp, stack := t.stack })

/-- R87 with an entry on the stack: `00EE` decrements SP and sets PC to the popped address, which stays in its entry. -/
def Obligations.RetPopsAndReturns : Prop :=
  ∀ (s : State),
    decodeWord 0x00EE#16 = .ret ∧
    (0 < s.sp.val → ∃ t, exec .ret s = .next t ∧
      t.sp.val = s.sp.val - 1 ∧ (∀ (h : t.sp.val < 16), t.pc = s.stack[t.sp.val]) ∧
      t = { s with pc := t.pc, sp := t.sp })

/-- A return after a call, whatever the called code did but leave the stack as the call left it, resumes at the word after the call with
the same SP (R83, R86, R87). -/
def Obligations.CallThenReturnResumes : Prop :=
  ∀ (nnn : Addr) (s : State), s.sp.val < 16 →
    ∃ t, exec (.call nnn) s = .next t ∧
      ∀ (u : State), u.sp = t.sp → u.stack = t.stack →
        ∃ v, exec .ret u = .next v ∧ v.pc = s.pc ∧ v.sp = s.sp

/-- R88 to R91: each skip adds 2 to PC when its comparison holds and changes nothing else. In `5xyn` and `9xyn` only n = 0 is a skip: the
strict matching of R66, which is the spec's decision D6 (log 2). -/
def Obligations.SkipsAddTwoWhenTheyHold : Prop :=
  ∀ (x y : Reg) (kk : Byte) (s : State),
    (decodeWord (0x3#4 ++ x ++ kk : BitVec 16) = .seVxKk x kk ∧
      exec (.seVxKk x kk) s = .next { s with pc := if s.getV x = kk then s.pc + 2#12 else s.pc }) ∧
    (decodeWord (0x4#4 ++ x ++ kk : BitVec 16) = .sneVxKk x kk ∧
      exec (.sneVxKk x kk) s = .next { s with pc := if s.getV x ≠ kk then s.pc + 2#12 else s.pc }) ∧
    (decodeWord (0x5#4 ++ x ++ y ++ 0#4 : BitVec 16) = .seVxVy x y ∧
      exec (.seVxVy x y) s = .next { s with pc := if s.getV x = s.getV y then s.pc + 2#12 else s.pc }) ∧
    (decodeWord (0x9#4 ++ x ++ y ++ 0#4 : BitVec 16) = .sneVxVy x y ∧
      exec (.sneVxVy x y) s = .next { s with pc := if s.getV x ≠ s.getV y then s.pc + 2#12 else s.pc }) ∧
    ∀ n : Nibble, n ≠ 0#4 →
      decodeWord (0x5#4 ++ x ++ y ++ n : BitVec 16) = .nop (0x5#4 ++ x ++ y ++ n : BitVec 16) ∧
      decodeWord (0x9#4 ++ x ++ y ++ n : BitVec 16) = .nop (0x9#4 ++ x ++ y ++ n : BitVec 16)

/-- R92: `Bnnn` jumps to nnn + V0 modulo 4096; the register is always V0. -/
def Obligations.JpV0AddsV0 : Prop :=
  ∀ (nnn : Addr) (s : State),
    decodeWord (0xB#4 ++ nnn : BitVec 16) = .jpV0Nnn nnn ∧
    ∃ t, exec (.jpV0Nnn nnn) s = .next t ∧ t.pc.toNat = (nnn.toNat + (s.getV 0#4).toNat) % 4096 ∧ OnlyPc s t

/-! ### Data transfer and arithmetic (42_data_arith.md) -/

/-- R94 to R98: loads and bitwise logic write V[x] and no flag; VF changes only as V[x]. -/
def Obligations.LoadsAndLogicWriteTheirRegister : Prop :=
  ∀ (x y : Reg) (kk : Byte) (s : State),
    (decodeWord (0x6#4 ++ x ++ kk : BitVec 16) = .ldVxKk x kk ∧
      ∃ t, exec (.ldVxKk x kk) s = .next t ∧ t.getV x = kk ∧ OnlyRegs (· = x) s t) ∧
    (decodeWord (0x8#4 ++ x ++ y ++ 0x0#4 : BitVec 16) = .ldVxVy x y ∧
      ∃ t, exec (.ldVxVy x y) s = .next t ∧ t.getV x = s.getV y ∧ OnlyRegs (· = x) s t) ∧
    (decodeWord (0x8#4 ++ x ++ y ++ 0x1#4 : BitVec 16) = .orVxVy x y ∧
      ∃ t, exec (.orVxVy x y) s = .next t ∧ t.getV x = s.getV x ||| s.getV y ∧ OnlyRegs (· = x) s t) ∧
    (decodeWord (0x8#4 ++ x ++ y ++ 0x2#4 : BitVec 16) = .andVxVy x y ∧
      ∃ t, exec (.andVxVy x y) s = .next t ∧ t.getV x = s.getV x &&& s.getV y ∧ OnlyRegs (· = x) s t) ∧
    (decodeWord (0x8#4 ++ x ++ y ++ 0x3#4 : BitVec 16) = .xorVxVy x y ∧
      ∃ t, exec (.xorVxVy x y) s = .next t ∧ t.getV x = s.getV x ^^^ s.getV y ∧ OnlyRegs (· = x) s t)

/-- R99: `7xkk` adds modulo 256 and writes no flag: VF is not written unless x = 0xF. -/
def Obligations.AddImmediateWrapsWithoutFlag : Prop :=
  ∀ (x : Reg) (kk : Byte) (s : State),
    decodeWord (0x7#4 ++ x ++ kk : BitVec 16) = .addVxKk x kk ∧
    ∃ t, exec (.addVxKk x kk) s = .next t ∧ (t.getV x).toNat = ((s.getV x).toNat + kk.toNat) % 256 ∧ OnlyRegs (· = x) s t

/-- R100 to R102: sum and differences modulo 256; VF is the carry, or 1 when the minuend is strictly greater. The flag is written last, so
for x = 0xF VF holds the flag: the spec's decision D7 (R93; log 15). -/
def Obligations.AddAndSubtractSetTheFlagLast : Prop :=
  ∀ (x y : Reg) (s : State),
    (∃ t, exec (.addVxVy x y) s = .next t ∧
      (x ≠ 0xF#4 → (t.getV x).toNat = ((s.getV x).toNat + (s.getV y).toNat) % 256) ∧
      t.getV 0xF#4 = (if (s.getV x).toNat + (s.getV y).toNat > 255 then 1#8 else 0#8) ∧
      OnlyRegs (fun r => r = x ∨ r = 0xF#4) s t) ∧
    (∃ t, exec (.subVxVy x y) s = .next t ∧
      (x ≠ 0xF#4 → (t.getV x).toNat = ((s.getV x).toNat + 256 - (s.getV y).toNat) % 256) ∧
      t.getV 0xF#4 = (if (s.getV x).toNat > (s.getV y).toNat then 1#8 else 0#8) ∧
      OnlyRegs (fun r => r = x ∨ r = 0xF#4) s t) ∧
    (∃ t, exec (.subnVxVy x y) s = .next t ∧
      (x ≠ 0xF#4 → (t.getV x).toNat = ((s.getV y).toNat + 256 - (s.getV x).toNat) % 256) ∧
      t.getV 0xF#4 = (if (s.getV y).toNat > (s.getV x).toNat then 1#8 else 0#8) ∧
      OnlyRegs (fun r => r = x ∨ r = 0xF#4) s t)

/-- R103, R104: logical shifts of V[x] by one; VF is the bit shifted out, written last (D7; log 15); the y field is ignored. -/
def Obligations.ShiftsUseOnlyTheTargetRegister : Prop :=
  ∀ (x y : Reg) (s : State),
    (∃ t, exec (.shrVx x y) s = .next t ∧ (x ≠ 0xF#4 → (t.getV x).toNat = (s.getV x).toNat / 2) ∧
      (t.getV 0xF#4).toNat = (s.getV x).toNat % 2 ∧ OnlyRegs (fun r => r = x ∨ r = 0xF#4) s t) ∧
    (∃ t, exec (.shlVx x y) s = .next t ∧ (x ≠ 0xF#4 → (t.getV x).toNat = 2 * (s.getV x).toNat % 256) ∧
      (t.getV 0xF#4).toNat = (s.getV x).toNat / 128 ∧ OnlyRegs (fun r => r = x ∨ r = 0xF#4) s t) ∧
    ∀ y' : Reg, exec (.shrVx x y) s = exec (.shrVx x y') s ∧ exec (.shlVx x y) s = exec (.shlVx x y') s

/-- R105, R108, R109: the three writers of I: an address, an unsigned sum modulo 4096 with no flag (D27), five times a register, not masked
(D14); nothing else changes. -/
def Obligations.IndexInstructionsSetI : Prop :=
  ∀ (x : Reg) (nnn : Addr) (s : State),
    exec (.ldINnn nnn) s = .next { s with i := nnn } ∧
    (∃ t, exec (.addIVx x) s = .next t ∧ t.i.toNat = (s.i.toNat + (s.getV x).toNat) % 4096 ∧ OnlyIndex s t) ∧
    (∃ t, exec (.ldFVx x) s = .next t ∧ t.i.toNat = 5 * (s.getV x).toNat ∧ OnlyIndex s t)

/-- R106: RND stores the byte on the `rnd` input of its tick masked with kk, for every draw (D21; log 3); no other instruction reads the
input (R31). -/
def Obligations.RndMasksTheDrawnByte : Prop :=
  (∀ (x : Reg) (kk : Byte) (s : State),
    ∃ t, exec (.rndVxKk x kk) s = .next t ∧ t.getV x = s.rnd &&& kk ∧ OnlyRegs (· = x) s t) ∧
  (∀ (inp : TickInput) (s : State) (x : Reg) (kk : Byte), s.halted = false → s.instrAt s.pc = .rndVxKk x kk →
    ∃ t, tickWith inp s = .next t ∧ t.getV x = inp.rnd &&& kk) ∧
  (∀ (i : Instr) (s : State) (r : Byte), (∀ x kk, i ≠ .rndVxKk x kk) →
    exec i { s with rnd := r } = onNext (fun t => { t with rnd := r }) (exec i s))

/-! ### Memory and sprites (43_memory_sprites.md, 20_memory.md) -/

/-- R110: the decimal digits of V[x] at I, I + 1 and I + 2 modulo 4096; I and everything else unchanged. -/
def Obligations.BcdStoresThreeDigits : Prop :=
  ∀ (x : Reg) (s : State),
    decodeWord (0xF#4 ++ x ++ 0x33#8 : BitVec 16) = .ldBVx x ∧
    ∃ t, exec (.ldBVx x) s = .next t ∧
      (t.memRead (s.indexed 0)).toNat = (s.getV x).toNat / 100 ∧
      (t.memRead (s.indexed 1)).toNat = (s.getV x).toNat / 10 % 10 ∧
      (t.memRead (s.indexed 2)).toNat = (s.getV x).toNat % 10 ∧
      OnlyMem (fun a => a = s.indexed 0 ∨ a = s.indexed 1 ∨ a = s.indexed 2) s t

/-- R111: V0 to Vx, inclusive, stored at I + k modulo 4096; I and everything else unchanged. -/
def Obligations.BlockStoreWritesV0ToVx : Prop :=
  ∀ (x : Reg) (s : State),
    decodeWord (0xF#4 ++ x ++ 0x55#8 : BitVec 16) = .ldMemVx x ∧
    ∃ t, exec (.ldMemVx x) s = .next t ∧
      (∀ r : Reg, r.toNat ≤ x.toNat → t.memRead (s.indexed r.toNat) = s.getV r) ∧
      OnlyMem (fun a => ∃ k, k ≤ x.toNat ∧ a = s.indexed k) s t

/-- R112: V0 to Vx, inclusive, loaded from I + k modulo 4096; I and everything else unchanged; a load after a store at the same I and x
reproduces V0 to Vx, whatever the registers held in between. -/
def Obligations.BlockLoadReadsV0ToVx : Prop :=
  (∀ (x : Reg) (s : State),
    decodeWord (0xF#4 ++ x ++ 0x65#8 : BitVec 16) = .ldVxMem x ∧
    ∃ t, exec (.ldVxMem x) s = .next t ∧
      (∀ r : Reg, r.toNat ≤ x.toNat → t.getV r = s.memRead (s.indexed r.toNat)) ∧
      OnlyRegs (fun r => r.toNat ≤ x.toNat) s t) ∧
  (∀ (x : Reg) (s : State), ∃ t, exec (.ldMemVx x) s = .next t ∧
    ∀ v : Vector Byte 16, ∃ u, exec (.ldVxMem x) { t with v := v } = .next u ∧
      ∀ r : Reg, r.toNat ≤ x.toNat → u.getV r = s.getV r)

/-- A store is seen by the fetch of the very next tick (R58, R45): a block store over the word after it makes that tick run V0, V1. -/
def Obligations.StoreIsSeenByTheNextFetch : Prop :=
  ∀ (inp : TickInput) (s : State) (x : Reg), s.halted = false → s.instrAt s.pc = .ldMemVx x → 1 ≤ x.toNat →
    s.i = s.pc + 2#12 →
    ∃ t, tickWith inp s = .next t ∧ t.halted = false ∧ t.pc = s.pc + 2#12 ∧
      t.instrAt t.pc = decodeWord (s.getV 0#4 ++ s.getV 1#4)

/-- R113: every pixel the sprite covers is XORed with its bit, at coordinates that wrap modulo 64 and 32, most significant bit first; every
other pixel is unchanged; VF is 1 exactly when a covered pixel with bit 1 was set; DIRTY is set; nothing else changes. The coordinates are
read before VF is written (D8), and n = 0 draws nothing (D15). -/
def Obligations.DrawXorsTheSpriteAndReportsCollision : Prop :=
  ∀ (x y : Reg) (n : Nibble) (s : State),
    ∃ t, exec (.drw x y n) s = .next t ∧
      (∀ r j, r < n.toNat → j < 8 →
        pixel t.fb (((s.getV x).toNat + j) % 64) (((s.getV y).toNat + r) % 32) =
          (pixel s.fb (((s.getV x).toNat + j) % 64) (((s.getV y).toNat + r) % 32) ^^
            (s.memRead (s.indexed r)).getLsbD (7 - j))) ∧
      (∀ px py, px < 64 → py < 32 →
        (∀ r j, r < n.toNat → j < 8 →
          ¬ (px = ((s.getV x).toNat + j) % 64 ∧ py = ((s.getV y).toNat + r) % 32)) →
        pixel t.fb px py = pixel s.fb px py) ∧
      (t.getV 0xF#4 = 0#8 ∨ t.getV 0xF#4 = 1#8) ∧
      (t.getV 0xF#4 = 1#8 ↔ ∃ r j, r < n.toNat ∧ j < 8 ∧ (s.memRead (s.indexed r)).getLsbD (7 - j) = true ∧
        pixel s.fb (((s.getV x).toNat + j) % 64) (((s.getV y).toNat + r) % 32) = true) ∧
      (∀ r, r ≠ 0xF#4 → t.getV r = s.getV r) ∧ (∀ a, t.memRead a = s.memRead a) ∧
      t = { s with v := t.v, fb := t.fb, dirty := true }

/-- R114 items (1) and (2): for x, y other than 0xF the same draw twice restores the whole framebuffer, and the second one reports a
collision exactly when a pixel under a 1-bit of the sprite was unset before the first. -/
def Obligations.DrawTwiceRestoresTheScreen : Prop :=
  ∀ (x y : Reg) (n : Nibble) (s : State), x ≠ 0xF#4 → y ≠ 0xF#4 →
    ∃ t u, exec (.drw x y n) s = .next t ∧ exec (.drw x y n) t = .next u ∧ u.fb = s.fb ∧
      (u.getV 0xF#4 = 1#8 ↔ ∃ r j, r < n.toNat ∧ j < 8 ∧ (s.memRead (s.indexed r)).getLsbD (7 - j) = true ∧
        pixel s.fb (((s.getV x).toNat + j) % 64) (((s.getV y).toNat + r) % 32) = false)

/-- Memory in canonical form is determined by what its 4096 addresses read as (R42, R46): equal memories are equal data. -/
def Obligations.CanonicalMemoriesAreExtensional : Prop :=
  ∀ (m m' : Memory), m.wf → m'.wf → (∀ a, a < 4096 → m.read a = m'.read a) → m = m'

/-! ### Timers and keypad (44_timers_keys.md) -/

/-- R115, R116: direct copies between DT and V[x], no side effect; the value read is DT after step 3 of the same tick, and the value set
is first decremented at step 3 of the next tick. -/
def Obligations.DelayTimerCopies : Prop :=
  (∀ (x : Reg) (s : State),
    decodeWord (0xF#4 ++ x ++ 0x07#8 : BitVec 16) = .ldVxDt x ∧
    decodeWord (0xF#4 ++ x ++ 0x15#8 : BitVec 16) = .ldDtVx x ∧
    (∃ t, exec (.ldVxDt x) s = .next t ∧ t.getV x = s.dt ∧ OnlyRegs (· = x) s t) ∧
    exec (.ldDtVx x) s = .next { s with dt := s.getV x }) ∧
  (∀ (inp : TickInput) (s : State) (x : Reg), s.halted = false →
    (s.instrAt s.pc = .ldVxDt x → ∃ t, tickWith inp s = .next t ∧ (t.getV x).toNat = s.dt.toNat - 1) ∧
    (s.instrAt s.pc = .ldDtVx x → ∃ t, tickWith inp s = .next t ∧ t.dt = s.getV x))

/-- R117: `Fx18` copies V[x] to ST and changes nothing else, the tone included: in its own tick the tone is as step 4 set it. -/
def Obligations.SoundTimerCopyLeavesTheTone : Prop :=
  ∀ (x : Reg) (s : State),
    exec (.ldStVx x) s = .next { s with st := s.getV x } ∧
    ∀ (inp : TickInput), s.halted = false → s.instrAt s.pc = .ldStVx x →
      ∃ t, tickWith inp s = .next t ∧ t.st = s.getV x ∧ (t.tone = true ↔ 2 ≤ s.st.toNat)

/-- R119, R120 with a key index in range: SKP skips when the key is down in this tick's snapshot, SKNP when it is not; nothing else
changes. -/
def Obligations.KeySkipsReadTheSnapshot : Prop :=
  ∀ (x : Reg) (s : State), (s.getV x).toNat ≤ 15 →
    exec (.skpVx x) s =
      .next { s with pc := if s.key.getLsbD (s.getV x).toNat = true then s.pc + 2#12 else s.pc } ∧
    exec (.sknpVx x) s =
      .next { s with pc := if s.key.getLsbD (s.getV x).toNat = false then s.pc + 2#12 else s.pc }

/-- R121: with a key down LD Vx, K stores the least pressed index (D13; log 17) and PC stays advanced; with none it sets PC back to its own
address and changes nothing else (D25). -/
def Obligations.WaitForKeyStoresTheLeastKey : Prop :=
  ∀ (x : Reg) (s : State),
    (s.key ≠ 0#16 → ∃ t k, exec (.ldVxK x) s = .next t ∧ k < 16 ∧ s.key.getLsbD k = true ∧
      (∀ k', k' < k → s.key.getLsbD k' = false) ∧ (t.getV x).toNat = k ∧ OnlyRegs (· = x) s t) ∧
    (s.key = 0#16 → exec (.ldVxK x) s = .next { s with pc := s.pc - 2#12 })

/-- A wait lasts as long as no key is pressed and ends in the first tick whose poll has one (R121, R154): over any number of idle ticks PC
stays at the LD Vx, K, no register, memory byte or stack entry changes and DT counts on; the next tick with a key stores it and moves on.
The wait held in PC and the least key are the spec's decisions D25 and D13 (log 17). -/
def Obligations.WaitForKeyEndsWithAKey : Prop :=
  ∀ (idle : List TickInput) (s : State) (x : Reg), s.halted = false → s.instrAt s.pc = .ldVxK x →
    (∀ inp ∈ idle, inp.keys = 0#16) →
    ∃ t, runEvents (idle.map Event.tick) s = .next t ∧ t.halted = false ∧ t.pc = s.pc ∧ t.v = s.v ∧ t.i = s.i ∧
      t.mem = s.mem ∧ t.sp = s.sp ∧ t.stack = s.stack ∧ t.fb = s.fb ∧ t.dt.toNat = s.dt.toNat - idle.length ∧
      ∀ inp : TickInput, inp.keys ≠ 0#16 →
        ∃ u k, tickWith inp t = .next u ∧ u.pc = s.pc + 2#12 ∧ k < 16 ∧ inp.keys.getLsbD k = true ∧
          (∀ k', k' < k → inp.keys.getLsbD k' = false) ∧ (u.getV x).toNat = k ∧ ∀ r, r ≠ x → u.getV r = s.getV r

/-- DT over a run (R135, R150): after k running ticks none of which runs LD DT, Vx it holds max(d - k, 0). -/
def Obligations.DelayTimerCountsTheTicks : Prop :=
  ∀ (ticks : List TickInput) (s t : State), runEvents (ticks.map Event.tick) s = .next t → t.halted = false →
    (∀ k u, k < ticks.length → runEvents ((ticks.take k).map Event.tick) s = .next u →
      ∀ x, u.instrAt u.pc ≠ .ldDtVx x) →
    t.dt.toNat = s.dt.toNat - ticks.length

/-- ST and the tone over a run (R135, R136, R151): after k ≥ 1 running ticks none of which runs LD ST, Vx, ST holds max(d - k, 0) and the
tone is on exactly when that is not 0. -/
def Obligations.SoundTimerDrivesTheTone : Prop :=
  ∀ (ticks : List TickInput) (s t : State), ticks ≠ [] → runEvents (ticks.map Event.tick) s = .next t → t.halted = false →
    (∀ k u, k < ticks.length → runEvents ((ticks.take k).map Event.tick) s = .next u →
      ∀ x, u.instrAt u.pc ≠ .ldStVx x) →
    t.st.toNat = s.st.toNat - ticks.length ∧ (t.tone = true ↔ ticks.length < s.st.toNat)

/-! ### Display and the NOP tag (45_display.md, 40_cycle.md) -/

/-- R122: `00E0` unsets every one of the 64 × 32 pixels and sets DIRTY, also on a clear screen; no register, memory byte or timer changes.
After its tick PC is 2 further and the next tick renders the clear screen. -/
def Obligations.ClsUnsetsEveryPixel : Prop :=
  ∀ (s : State),
    decodeWord 0x00E0#16 = .cls ∧
    (∃ t, exec .cls s = .next t ∧ (∀ x y, x < 64 → y < 32 → pixel t.fb x y = false) ∧ t.dirty = true ∧
      t = { s with fb := t.fb, dirty := true }) ∧
    ∀ (inp inp' : TickInput), s.halted = false → s.instrAt s.pc = .cls →
      ∃ t u, tickWith inp s = .next t ∧ t.pc = s.pc + 2#12 ∧ tickWith inp' t = .next u ∧ u.render = some 0#2048

/-- R82: a NOP-tag word changes nothing; after its tick PC = (a + 2) mod 4096 and every other piece of state is as steps 1 to 4 left it. -/
def Obligations.NopTagChangesNothing : Prop :=
  ∀ (w : Word) (s : State),
    exec (.nop w) s = .next s ∧
    ∀ (inp : TickInput), s.halted = false → s.instrAt s.pc = .nop w →
      tickWith inp s = .next { s.beginTick inp with pc := s.pc + 2#12 }

/-! ### Whole-machine rules (10_state.md) -/

/-- Who writes what: each piece of state is written by the instructions the spec names and no other. V[r]: the "written by" column of R19,
so V[y] is never written as such; PC past the fetch advance: the jumps, CALL, RET, the skips and LD Vx, K (R77); I: R20; SP and the
stack: R24; DT and ST: R135; memory: R43; the framebuffer and DIRTY: R28, R29; the fault status and the tone: fault entry alone (R37,
R129; D9, log 9); KEY, the ports, the boot phase and the model's own fields: none (R30, R31, R34; logs 3, 7). -/
def Obligations.EachPieceOfStateHasItsWriters : Prop :=
  ∀ (i : Instr) (s : State), ∃ t, exec i s = .next t ∧
    (∀ r, ¬ writesReg i r → t.getV r = s.getV r) ∧
    (writesPc i = false → t.pc = s.pc) ∧
    t.dirty = (drawsScreen i || s.dirty) ∧
    ((∀ nnn x, i ≠ .ldINnn nnn ∧ i ≠ .addIVx x ∧ i ≠ .ldFVx x) → t.i = s.i) ∧
    ((∀ nnn, i ≠ .call nnn ∧ i ≠ .ret) → t.sp = s.sp ∧ t.stack = s.stack) ∧
    ((∀ x, i ≠ .ldDtVx x) → t.dt = s.dt) ∧
    ((∀ x, i ≠ .ldStVx x) → t.st = s.st) ∧
    ((∀ x, i ≠ .ldBVx x ∧ i ≠ .ldMemVx x) → t.mem = s.mem) ∧
    (drawsScreen i = false → t.fb = s.fb) ∧
    ((∀ nnn x, i ≠ .call nnn ∧ i ≠ .ret ∧ i ≠ .skpVx x ∧ i ≠ .sknpVx x) →
      t.halted = s.halted ∧ t.faultCode = s.faultCode ∧ t.faultPc = s.faultPc ∧ t.tone = s.tone) ∧
    t.key = s.key ∧ t.rnd = s.rnd ∧ t.render = s.render ∧ t.booting = s.booting ∧ t.inputs = s.inputs ∧ t.polls = s.polls

/-- VF as the flag (R18, R39, R147): an instruction that changes VF is one of ADD, SUB, SUBN Vx, Vy, SHR, SHL, DRW, or names VF as its
destination. -/
def Obligations.VfChangesOnlyAsFlagOrDestination : Prop :=
  ∀ (i : Instr) (s : State), ∃ t, exec i s = .next t ∧
    (t.getV 0xF#4 ≠ s.getV 0xF#4 →
      (∃ x y, i = .addVxVy x y ∨ i = .subVxVy x y ∨ i = .subnVxVy x y ∨ i = .shrVx x y ∨ i = .shlVx x y) ∨
      (∃ x y n, i = .drw x y n) ∨
      (∃ kk, i = .ldVxKk 0xF#4 kk ∨ i = .addVxKk 0xF#4 kk ∨ i = .rndVxKk 0xF#4 kk) ∨
      (∃ y, i = .ldVxVy 0xF#4 y ∨ i = .orVxVy 0xF#4 y ∨ i = .andVxVy 0xF#4 y ∨ i = .xorVxVy 0xF#4 y) ∨
      i = .ldVxDt 0xF#4 ∨ i = .ldVxK 0xF#4 ∨ i = .ldVxMem 0xF#4)

/-- Who writes and who reads the framebuffer (R28): only DRW and CLS write it; no instruction but DRW reads it, and DRW brings nothing of
it into a register but its collision flag. -/
def Obligations.OnlyDrawReadsTheFramebuffer : Prop :=
  (∀ (i : Instr) (s : State), drawsScreen i = false → ∃ t, exec i s = .next t ∧ t.fb = s.fb) ∧
  (∀ (inp : TickInput) (s : State), drawsScreen (s.instrAt s.pc) = false → ∃ t, tickWith inp s = .next t ∧ t.fb = s.fb) ∧
  (∀ (i : Instr) (s : State) (f : Framebuffer), (∀ x y n, i ≠ .drw x y n) →
    exec i { s with fb := f } = onNext (fun t => { t with fb := if i = .cls then 0#2048 else f }) (exec i s)) ∧
  (∀ (x y : Reg) (n : Nibble) (s : State) (f : Framebuffer),
    ∃ t t', exec (.drw x y n) s = .next t ∧ exec (.drw x y n) { s with fb := f } = .next t' ∧
      t' = { t with fb := t'.fb, v := t'.v } ∧ ∀ r, r ≠ 0xF#4 → t'.getV r = t.getV r)

/-- "Entries at index SP and above keep whatever value they last held; a program cannot observe them" (R24): two states that differ only
there tick to states that differ only there. -/
def Obligations.FreeStackEntriesAreUnobservable : Prop :=
  ∀ (inp : TickInput) (s s' : State), SameButFreeStack s s' →
    ∃ t t', tickWith inp s = .next t ∧ tickWith inp s' = .next t' ∧ SameButFreeStack t t' ∧
      (∀ k (h : k < 16), s.sp.val < k → t.stack[k] = s.stack[k])

/-! ### Reset, boot and the invariant (70_reset_and_hazards.md) -/

/-- R41, R142: the reset values, memory included. All but PC and the presence of the font are the spec's decisions D9, D16, D17
(logs 5, 6); the boot phase is open (R142; log 7). -/
def Obligations.ResetValuesOfEveryRegister : Prop :=
  State.reset.pc = 0x200#12 ∧ (∀ r, State.reset.getV r = 0#8) ∧ State.reset.i = 0#12 ∧ State.reset.sp.val = 0 ∧
  (∀ k (h : k < 16), State.reset.stack[k] = 0#12) ∧ State.reset.dt = 0#8 ∧ State.reset.st = 0#8 ∧
  (∀ x y, pixel State.reset.fb x y = false) ∧ State.reset.dirty = false ∧ (∀ k, State.reset.key.getLsbD k = false) ∧
  State.reset.halted = false ∧ State.reset.faultCode = 0#2 ∧ State.reset.faultPc = 0#12 ∧ State.reset.tone = false ∧
  State.reset.booting = true ∧ ∀ a : Addr, 0x50 ≤ a.toNat → State.reset.memRead a = 0#8

/-- R47, R48: after reset the five bytes at 5·d are the glyph of digit d, for the conventional font (D17; log 6). -/
def Obligations.FontGlyphsStandAtFiveTimesTheDigit : Prop :=
  ∀ d : Fin 16,
    (List.range 5).map (fun j => State.reset.memRead (BitVec.ofNat 12 (5 * d.val + j))) =
      ([[0xF0, 0x90, 0x90, 0x90, 0xF0], [0x20, 0x60, 0x20, 0x20, 0x70], [0xF0, 0x10, 0xF0, 0x80, 0xF0],
        [0xF0, 0x10, 0xF0, 0x10, 0xF0], [0x90, 0x90, 0xF0, 0x10, 0x10], [0xF0, 0x80, 0xF0, 0x10, 0xF0],
        [0xF0, 0x80, 0xF0, 0x90, 0xF0], [0xF0, 0x10, 0x20, 0x40, 0x40], [0xF0, 0x90, 0xF0, 0x90, 0xF0],
        [0xF0, 0x90, 0xF0, 0x10, 0xF0], [0xF0, 0x90, 0xF0, 0x90, 0x90], [0xE0, 0x90, 0xE0, 0x90, 0xE0],
        [0xF0, 0x80, 0x80, 0x80, 0xF0], [0xE0, 0x90, 0x90, 0x90, 0xE0], [0xF0, 0x80, 0xF0, 0x80, 0xF0],
        [0xF0, 0x80, 0xF0, 0x80, 0x80]] : List (List Byte)).getD d.val []

/-- R49: the image lands from 0x200, bytes at or beyond 4096 are dropped, every byte it does not reach keeps its reset value, which is 0x00
from 0x200 up; nothing but memory changes. The zeros are reset contents, the spec's decision D16 (R41; log 6). -/
def Obligations.RomImageLandsAt0x200 : Prop :=
  ∀ (rom : List Byte),
    State.reset.loadRom rom = { State.reset with mem := (State.reset.loadRom rom).mem } ∧
    ∀ a : Addr,
      (0x200 ≤ a.toNat → a.toNat - 0x200 < rom.length →
        (State.reset.loadRom rom).memRead a = rom.getD (a.toNat - 0x200) 0#8) ∧
      (0x200 ≤ a.toNat → rom.length ≤ a.toNat - 0x200 → (State.reset.loadRom rom).memRead a = 0x00#8) ∧
      (a.toNat < 0x200 → (State.reset.loadRom rom).memRead a = State.reset.memRead a)

/-- R34, R143: a load cycle writes one byte at 0x200 or above while the boot phase is open, and is ignored otherwise; a running tick closes
the boot phase. The port is the spec's decision D24 (logs 7, 22). -/
def Obligations.LoadPortWritesOnlyAtBoot : Prop :=
  (∀ (we : Bool) (addr : Addr) (data : Byte) (s : State),
    ∃ t, Event.apply (.load we addr data) s = .next t ∧
      (s.booting = true → we = true → 0x200 ≤ addr.toNat →
        t.memRead addr = data ∧ OnlyMem (· = addr) s t) ∧
      (s.booting = false ∨ we = false ∨ addr.toNat < 0x200 → t = s)) ∧
  (∀ (inp : TickInput) (s : State), s.halted = false → ∃ t, tickWith inp s = .next t ∧ t.booting = false)

/-- The invariant holds at reset (R41, R142); the reset values it speaks of are the spec's decisions D9, D16, D17 (logs 5, 6, 9). -/
def Obligations.InvariantHoldsAtReset : Prop := State.reset.Inv

/-- From every state with the invariant every step gives a state with it: memory keeps its canonical form, a running block has no fault
recorded, a halted one records a condition whose cause holds at FAULT_PC with the fetch advance standing and the tone off (R37, R80,
R125, R129 to R131). Halting is the spec's decision D9, the boot clause rests on the boot bit and the canonical form is the model's (R46;
logs 6, 7, 9). -/
def Obligations.EveryStepKeepsTheInvariant : Prop :=
  ∀ (s : State), s.Inv → ∃ t, step s = .next t ∧ t.Inv

/-- So does every run of ticks, resets and load cycles (R31, R34, R142); the ports are the spec's decisions D1 and D24 (logs 7, 13, 22). -/
def Obligations.EveryRunOfEventsKeepsTheInvariant : Prop :=
  ∀ (es : List Event) (s : State), s.Inv → ∃ t, runEvents es s = .next t ∧ t.Inv
end

