-- ==== Sys2Proof/Laws/Decode.lean ====
section
/-! SUPPORT. Sys2Proof/Laws/Decode.lean: the fields of a packed word, a word put together from its fields, and the byte layout. -/
namespace Sys2Proof

/-! ### Bits of the packed formats -/

theorem getLsbD_packNNN (o : Nibble) (nnn : Addr) (k : Nat) :
    (packNNN o nnn).getLsbD k = if k < 12 then nnn.getLsbD k else o.getLsbD (k - 12) := BitVec.getLsbD_append

theorem getLsbD_packXKK (o : Nibble) (x : Reg) (kk : Byte) (k : Nat) :
    (packXKK o x kk).getLsbD k =
      if k < 8 then kk.getLsbD k else if k - 8 < 4 then x.getLsbD (k - 8) else o.getLsbD (k - 8 - 4) := by
  have h : (packXKK o x kk).getLsbD k = if k < 8 then kk.getLsbD k else (o ++ x).getLsbD (k - 8) := BitVec.getLsbD_append
  rw [h, BitVec.getLsbD_append]

theorem getLsbD_packXYN (o : Nibble) (x y : Reg) (n : Nibble) (k : Nat) :
    (packXYN o x y n).getLsbD k =
      if k < 4 then n.getLsbD k else if k - 4 < 4 then y.getLsbD (k - 4)
      else if k - 4 - 4 < 4 then x.getLsbD (k - 4 - 4) else o.getLsbD (k - 4 - 4 - 4) := by
  have h : (packXYN o x y n).getLsbD k = if k < 4 then n.getLsbD k else (o ++ x ++ y).getLsbD (k - 4) :=
    BitVec.getLsbD_append
  rw [h, BitVec.getLsbD_append, BitVec.getLsbD_append]

theorem getLsbD_joinBytes (hi lo : Byte) (k : Nat) :
    (joinBytes hi lo).getLsbD k = if k < 8 then lo.getLsbD k else hi.getLsbD (k - 8) := BitVec.getLsbD_append

/-! ### Fields of packed words -/

@[simp] theorem fieldO_packNNN (o : Nibble) (nnn : Addr) : fieldO (packNNN o nnn) = o := by
  apply BitVec.eq_of_getLsbD_eq
  intro i hi
  simp [fieldO, getLsbD_packNNN, hi]

@[simp] theorem fieldNNN_packNNN (o : Nibble) (nnn : Addr) : fieldNNN (packNNN o nnn) = nnn := by
  apply BitVec.eq_of_getLsbD_eq
  intro i hi
  simp [fieldNNN, getLsbD_packNNN, hi]

@[simp] theorem fieldO_packXKK (o : Nibble) (x : Reg) (kk : Byte) : fieldO (packXKK o x kk) = o := by
  apply BitVec.eq_of_getLsbD_eq
  intro i hi
  have h1 : ¬ 12 + i < 8 := by omega
  have h2 : ¬ 12 + i - 8 < 4 := by omega
  have h3 : 12 + i - 8 - 4 = i := by omega
  simp only [fieldO, BitVec.getLsbD_extractLsb', getLsbD_packXKK, hi, h1, h2, h3, decide_true, Bool.true_and, if_false]

@[simp] theorem fieldX_packXKK (o : Nibble) (x : Reg) (kk : Byte) : fieldX (packXKK o x kk) = x := by
  apply BitVec.eq_of_getLsbD_eq
  intro i hi
  simp [fieldX, getLsbD_packXKK, hi]

@[simp] theorem fieldKK_packXKK (o : Nibble) (x : Reg) (kk : Byte) : fieldKK (packXKK o x kk) = kk := by
  apply BitVec.eq_of_getLsbD_eq
  intro i hi
  simp [fieldKK, getLsbD_packXKK, hi]

@[simp] theorem fieldO_packXYN (o : Nibble) (x y : Reg) (n : Nibble) : fieldO (packXYN o x y n) = o := by
  apply BitVec.eq_of_getLsbD_eq
  intro i hi
  have h1 : ¬ 12 + i < 4 := by omega
  have h2 : ¬ 12 + i - 4 < 4 := by omega
  have h3 : ¬ 12 + i - 4 - 4 < 4 := by omega
  have h4 : 12 + i - 4 - 4 - 4 = i := by omega
  simp only [fieldO, BitVec.getLsbD_extractLsb', getLsbD_packXYN, hi, h1, h2, h3, h4, decide_true, Bool.true_and, if_false]

@[simp] theorem fieldX_packXYN (o : Nibble) (x y : Reg) (n : Nibble) : fieldX (packXYN o x y n) = x := by
  apply BitVec.eq_of_getLsbD_eq
  intro i hi
  have h1 : ¬ 8 + i < 4 := by omega
  have h2 : ¬ 8 + i - 4 < 4 := by omega
  have h3 : 8 + i - 4 - 4 = i := by omega
  simp only [fieldX, BitVec.getLsbD_extractLsb', getLsbD_packXYN, hi, h1, h2, h3, decide_true, Bool.true_and, if_false, if_true]

@[simp] theorem fieldY_packXYN (o : Nibble) (x y : Reg) (n : Nibble) : fieldY (packXYN o x y n) = y := by
  apply BitVec.eq_of_getLsbD_eq
  intro i hi
  simp [fieldY, getLsbD_packXYN, hi]

@[simp] theorem fieldN_packXYN (o : Nibble) (x y : Reg) (n : Nibble) : fieldN (packXYN o x y n) = n := by
  apply BitVec.eq_of_getLsbD_eq
  intro i hi
  simp [fieldN, getLsbD_packXYN, hi]

/-! ### Words put together from their fields -/

theorem packNNN_fields (w : Word) : packNNN (fieldO w) (fieldNNN w) = w := by
  apply BitVec.eq_of_getLsbD_eq
  intro i hi
  rw [getLsbD_packNNN]
  split
  · rename_i h; simp [fieldNNN, h]
  · have h1 : i - 12 < 4 := by omega
    have h2 : 12 + (i - 12) = i := by omega
    simp [fieldO, h1, h2]

theorem packXKK_fields (w : Word) : packXKK (fieldO w) (fieldX w) (fieldKK w) = w := by
  apply BitVec.eq_of_getLsbD_eq
  intro i hi
  rw [getLsbD_packXKK]
  split
  · rename_i h; simp [fieldKK, h]
  · split
    · rename_i h1 h2
      have h3 : 8 + (i - 8) = i := by omega
      simp [fieldX, h2, h3]
    · have h1 : i - 8 - 4 < 4 := by omega
      have h2 : 12 + (i - 8 - 4) = i := by omega
      simp [fieldO, h1, h2]

theorem packXYN_fields (w : Word) : packXYN (fieldO w) (fieldX w) (fieldY w) (fieldN w) = w := by
  apply BitVec.eq_of_getLsbD_eq
  intro i hi
  rw [getLsbD_packXYN]
  split
  · rename_i h; simp [fieldN, h]
  · split
    · rename_i h1 h2
      have h3 : 4 + (i - 4) = i := by omega
      simp [fieldY, h2, h3]
    · split
      · rename_i h1 h2 h4
        have h3 : 8 + (i - 4 - 4) = i := by omega
        simp [fieldX, h4, h3]
      · have h1 : i - 4 - 4 - 4 < 4 := by omega
        have h2 : 12 + (i - 4 - 4 - 4) = i := by omega
        simp [fieldO, h1, h2]

/-! ### Masks of the opcode map: which fields a row fixes -/

theorem and_packNNN (o o' : Nibble) (a a' : Addr) : packNNN o a &&& packNNN o' a' = packNNN (o &&& o') (a &&& a') := by
  apply BitVec.eq_of_getLsbD_eq
  intro i hi
  simp only [BitVec.getLsbD_and, getLsbD_packNNN]
  split <;> rfl

theorem and_packXKK (o o' : Nibble) (x x' : Reg) (k k' : Byte) :
    packXKK o x k &&& packXKK o' x' k' = packXKK (o &&& o') (x &&& x') (k &&& k') := by
  apply BitVec.eq_of_getLsbD_eq
  intro i hi
  simp only [BitVec.getLsbD_and, getLsbD_packXKK]
  split
  · rfl
  · split <;> rfl

theorem and_packXYN (o o' : Nibble) (x x' y y' : Reg) (n n' : Nibble) :
    packXYN o x y n &&& packXYN o' x' y' n' = packXYN (o &&& o') (x &&& x') (y &&& y') (n &&& n') := by
  apply BitVec.eq_of_getLsbD_eq
  intro i hi
  simp only [BitVec.getLsbD_and, getLsbD_packXYN]
  split
  · rfl
  · split
    · rfl
    · split <;> rfl

/-- A row whose mask is F000 fixes the first nibble alone. -/
theorem covers_major (m : String) (o : Nibble) (w : Word) :
    (OpcodeRow.mk m 0xF000#16 (packNNN o 0#12)).covers w = decide (fieldO w = o) := by
  have h : w &&& 0xF000#16 = packNNN (fieldO w) 0#12 := by
    calc w &&& 0xF000#16 = packNNN (fieldO w) (fieldNNN w) &&& packNNN 0xF#4 0#12 := by rw [packNNN_fields]; rfl
      _ = packNNN (fieldO w) 0#12 := by
        rw [and_packNNN, BitVec.and_zero, show (0xF#4) = BitVec.allOnes 4 from rfl, BitVec.and_allOnes]
  have e : packNNN (fieldO w) 0#12 = packNNN o 0#12 ↔ fieldO w = o :=
    ⟨fun e => by simpa using congrArg fieldO e, fun e => e ▸ rfl⟩
  simp only [OpcodeRow.covers, h]
  exact Bool.eq_iff_iff.2 (by simpa using e)

/-- A row whose mask is F00F fixes the first and the fourth nibble. -/
theorem covers_function (m : String) (o n : Nibble) (w : Word) :
    (OpcodeRow.mk m 0xF00F#16 (packXYN o 0#4 0#4 n)).covers w = decide (fieldO w = o ∧ fieldN w = n) := by
  have h : w &&& 0xF00F#16 = packXYN (fieldO w) 0#4 0#4 (fieldN w) := by
    calc w &&& 0xF00F#16 = packXYN (fieldO w) (fieldX w) (fieldY w) (fieldN w) &&& packXYN 0xF#4 0#4 0#4 0xF#4 := by
          rw [packXYN_fields]; rfl
      _ = packXYN (fieldO w) 0#4 0#4 (fieldN w) := by
        rw [and_packXYN, BitVec.and_zero, BitVec.and_zero, show (0xF#4) = BitVec.allOnes 4 from rfl, BitVec.and_allOnes,
          BitVec.and_allOnes]
  have e : packXYN (fieldO w) 0#4 0#4 (fieldN w) = packXYN o 0#4 0#4 n ↔ fieldO w = o ∧ fieldN w = n :=
    ⟨fun e => ⟨by simpa using congrArg fieldO e, by simpa using congrArg fieldN e⟩, fun e => e.1 ▸ e.2 ▸ rfl⟩
  simp only [OpcodeRow.covers, h]
  exact Bool.eq_iff_iff.2 (by simpa using e)

/-- A row whose mask is F0FF fixes the first nibble and the low byte. -/
theorem covers_low_byte (m : String) (o : Nibble) (kk : Byte) (w : Word) :
    (OpcodeRow.mk m 0xF0FF#16 (packXKK o 0#4 kk)).covers w = decide (fieldO w = o ∧ fieldKK w = kk) := by
  have h : w &&& 0xF0FF#16 = packXKK (fieldO w) 0#4 (fieldKK w) := by
    calc w &&& 0xF0FF#16 = packXKK (fieldO w) (fieldX w) (fieldKK w) &&& packXKK 0xF#4 0#4 0xFF#8 := by
          rw [packXKK_fields]; rfl
      _ = packXKK (fieldO w) 0#4 (fieldKK w) := by
        rw [and_packXKK, BitVec.and_zero, show (0xF#4) = BitVec.allOnes 4 from rfl, show (0xFF#8) = BitVec.allOnes 8 from rfl,
          BitVec.and_allOnes, BitVec.and_allOnes]
  have e : packXKK (fieldO w) 0#4 (fieldKK w) = packXKK o 0#4 kk ↔ fieldO w = o ∧ fieldKK w = kk :=
    ⟨fun e => ⟨by simpa using congrArg fieldO e, by simpa using congrArg fieldKK e⟩, fun e => e.1 ▸ e.2 ▸ rfl⟩
  simp only [OpcodeRow.covers, h]
  exact Bool.eq_iff_iff.2 (by simpa using e)

/-- A row whose mask is FFFF is one word. -/
theorem covers_exact (m : String) (v w : Word) : (OpcodeRow.mk m 0xFFFF#16 v).covers w = decide (w = v) := by
  simp only [OpcodeRow.covers, show (0xFFFF#16) = BitVec.allOnes 16 from rfl, BitVec.and_allOnes]
  exact Bool.eq_iff_iff.2 (by simp)

/-- Every row of the map is one of the four kinds, its value with zeros outside the fields it fixes. -/
theorem opcodeMap_kinds : ∀ r ∈ opcodeMap,
    r.mask = 0xFFFF#16 ∨ (r.mask = 0xF000#16 ∧ r.value = packNNN (fieldO r.value) 0#12) ∨
    (r.mask = 0xF00F#16 ∧ r.value = packXYN (fieldO r.value) 0#4 0#4 (fieldN r.value)) ∨
    (r.mask = 0xF0FF#16 ∧ r.value = packXKK (fieldO r.value) 0#4 (fieldKK r.value)) := by
  decide

/-- What it means for a row of the map to cover a word, in terms of the fields. -/
theorem covers_iff {r : OpcodeRow} (hr : r ∈ opcodeMap) (w : Word) :
    r.covers w = true ↔
      (r.mask = 0xFFFF#16 ∧ w = r.value) ∨ (r.mask = 0xF000#16 ∧ fieldO w = fieldO r.value) ∨
      (r.mask = 0xF00F#16 ∧ fieldO w = fieldO r.value ∧ fieldN w = fieldN r.value) ∨
      (r.mask = 0xF0FF#16 ∧ fieldO w = fieldO r.value ∧ fieldKK w = fieldKK r.value) := by
  have hk := opcodeMap_kinds r hr
  obtain ⟨m, k, v⟩ := r
  dsimp only at hk ⊢
  rcases hk with rfl | ⟨rfl, hv⟩ | ⟨rfl, hv⟩ | ⟨rfl, hv⟩
  · simp [covers_exact]
  · have h := covers_major m (fieldO v) w
    rw [← hv] at h
    simp [h]
  · have h := covers_function m (fieldO v) (fieldN v) w
    rw [← hv] at h
    simp [h]
  · have h := covers_low_byte m (fieldO v) (fieldKK v) w
    rw [← hv] at h
    simp [h]

/-- The two bytes of a word, high byte first, join to the word (R44). -/
theorem joinBytes_halves (w : Word) : joinBytes (w.extractLsb' 8 8) (w.extractLsb' 0 8) = w := by
  apply BitVec.eq_of_getLsbD_eq
  intro i hi
  rw [getLsbD_joinBytes]
  split
  · rename_i h; simp [h]
  · have h1 : i - 8 < 8 := by omega
    have h2 : 8 + (i - 8) = i := by omega
    simp [h1, h2]

end Sys2Proof
end

