-- ==== Sys2Proof/Laws/Memory.lean ====
section
/-! SUPPORT. Sys2Proof/Laws/Memory.lean: reading after a write, and that every memory operation keeps the canonical form. -/
namespace Sys2Proof.Machine

@[simp] theorem Memory.read_nil (a : Nat) : Memory.read [] a = unlistedByte a := rfl

theorem Memory.read_cons (c : Host.Cell) (m : Memory) (a : Nat) :
    Memory.read (c :: m) a = if c.1 = a then c.2 else m.read a := rfl

theorem Memory.read_insert (m : Memory) (a : Nat) (b : Byte) (a' : Nat) :
    (m.insert a b).read a' = if a' = a then b else m.read a' := by
  induction m with
  | nil => simp [Memory.insert, Memory.read_cons, eq_comm]
  | cons c m ih =>
    unfold Memory.insert
    split
    · simp [Memory.read_cons, eq_comm]
    · split
      · rename_i _ h
        simp only [Memory.read_cons, ← h]
        by_cases h' : a' = a
        · simp [h']
        · simp [h', Ne.symm h']
      · rename_i _ h
        simp only [Memory.read_cons, ih]
        by_cases h' : c.1 = a'
        · have : a' ≠ a := fun h'' => h (h''.symm.trans h'.symm)
          simp [h', this]
        · simp [h']

theorem Memory.read_erase (m : Memory) (a a' : Nat) :
    (m.erase a).read a' = if a' = a then unlistedByte a else m.read a' := by
  induction m with
  | nil => by_cases h : a' = a <;> simp [Memory.erase, h]
  | cons c m ih =>
    unfold Memory.erase
    by_cases hc : c.1 = a
    · by_cases h : a' = a
      · subst h
        simpa [hc] using ih
      · simp [hc, ih, h, Memory.read_cons, Ne.symm h]
    · by_cases h : a' = a
      · subst h
        simp [hc, Memory.read_cons, ih]
      · simp [hc, Memory.read_cons, ih, h]

/-- A read after a write: the byte written at its address, the old byte everywhere else. -/
theorem Memory.read_write (m : Memory) (a : Nat) (b : Byte) (a' : Nat) :
    (m.write a b).read a' = if a' = a then b else m.read a' := by
  unfold Memory.write
  split
  · rename_i h
    rw [Memory.read_erase, ← h]
  · exact Memory.read_insert m a b a'

theorem Memory.mem_insert {m : Memory} {a : Nat} {b : Byte} {c : Host.Cell} (h : c ∈ m.insert a b) :
    c = (a, b) ∨ c ∈ m := by
  induction m with
  | nil => simpa [Memory.insert] using h
  | cons d m ih =>
    unfold Memory.insert at h
    split at h
    · simpa using h
    · split at h
      · rcases List.mem_cons.1 h with h | h
        · exact .inl h
        · exact .inr (List.mem_cons_of_mem _ h)
      · rcases List.mem_cons.1 h with h | h
        · exact .inr (h ▸ List.mem_cons_self)
        · exact (ih h).imp id (List.mem_cons_of_mem _)

theorem Memory.mem_erase {m : Memory} {a : Nat} {c : Host.Cell} (h : c ∈ m.erase a) : c ∈ m := by
  induction m with
  | nil => simp [Memory.erase] at h
  | cons d m ih =>
    unfold Memory.erase at h
    split at h
    · exact List.mem_cons_of_mem _ (ih h)
    · rcases List.mem_cons.1 h with h | h
      · exact h ▸ List.mem_cons_self
      · exact List.mem_cons_of_mem _ (ih h)

theorem Memory.rising_insert {m : Memory} (a : Nat) (b : Byte)
    (h : List.Pairwise (fun c d : Host.Cell => c.1 < d.1) m) :
    List.Pairwise (fun c d : Host.Cell => c.1 < d.1) (m.insert a b) := by
  induction m with
  | nil => simp [Memory.insert]
  | cons d m ih =>
    have hd := List.pairwise_cons.1 h
    unfold Memory.insert
    split
    · rename_i hlt
      refine List.pairwise_cons.2 ⟨fun c hc => ?_, h⟩
      rcases List.mem_cons.1 hc with rfl | hc
      · exact hlt
      · exact lt_trans hlt (hd.1 c hc)
    · split
      · rename_i _ heq
        exact List.pairwise_cons.2 ⟨fun c hc => heq ▸ hd.1 c hc, hd.2⟩
      · rename_i hlt heq
        refine List.pairwise_cons.2 ⟨fun c hc => ?_, ih hd.2⟩
        rcases Memory.mem_insert hc with rfl | hc
        · exact lt_of_le_of_ne (not_lt.1 hlt) (Ne.symm heq)
        · exact hd.1 c hc

theorem Memory.rising_erase {m : Memory} (a : Nat)
    (h : List.Pairwise (fun c d : Host.Cell => c.1 < d.1) m) :
    List.Pairwise (fun c d : Host.Cell => c.1 < d.1) (m.erase a) := by
  induction m with
  | nil => simp [Memory.erase]
  | cons d m ih =>
    have hd := List.pairwise_cons.1 h
    unfold Memory.erase
    split
    · exact ih hd.2
    · exact List.pairwise_cons.2 ⟨fun c hc => hd.1 c (Memory.mem_erase hc), ih hd.2⟩

/-- A write inside the address space keeps the canonical form. -/
theorem Memory.write_wf {m : Memory} {a : Nat} {b : Byte} (ha : a < Config.memSize) (h : m.wf) : (m.write a b).wf := by
  unfold Memory.write
  split
  · exact ⟨Memory.rising_erase a h.1, fun c hc => h.2 c (Memory.mem_erase hc)⟩
  · rename_i hb
    refine ⟨Memory.rising_insert a b h.1, fun c hc => ?_⟩
    rcases Memory.mem_insert hc with rfl | hc
    · exact ⟨ha, hb⟩
    · exact h.2 c hc

theorem Memory.nil_wf : Memory.wf [] := by simp [Memory.wf]

end Sys2Proof.Machine
end

