-- ==== Sys2Proof/Laws/State.lean ====
section
/-! SUPPORT. Sys2Proof/Laws/State.lean: one lemma for each field of State under each update of Machine/Ops.lean, Machine/Flags.lean and
Machine/Tick.lean, so that no later proof unfolds a record update. -/
namespace Sys2Proof.Machine

/-! #### `setV` -/

@[simp] theorem State.setV_v (s : State) (r : Reg) (b : Byte) : (s.setV r b).v = s.v.set r.toNat b r.isLt := rfl
@[simp] theorem State.setV_i (s : State) (r : Reg) (b : Byte) : (s.setV r b).i = s.i := rfl
@[simp] theorem State.setV_pc (s : State) (r : Reg) (b : Byte) : (s.setV r b).pc = s.pc := rfl
@[simp] theorem State.setV_sp (s : State) (r : Reg) (b : Byte) : (s.setV r b).sp = s.sp := rfl
@[simp] theorem State.setV_stack (s : State) (r : Reg) (b : Byte) : (s.setV r b).stack = s.stack := rfl
@[simp] theorem State.setV_dt (s : State) (r : Reg) (b : Byte) : (s.setV r b).dt = s.dt := rfl
@[simp] theorem State.setV_st (s : State) (r : Reg) (b : Byte) : (s.setV r b).st = s.st := rfl
@[simp] theorem State.setV_mem (s : State) (r : Reg) (b : Byte) : (s.setV r b).mem = s.mem := rfl
@[simp] theorem State.setV_fb (s : State) (r : Reg) (b : Byte) : (s.setV r b).fb = s.fb := rfl
@[simp] theorem State.setV_dirty (s : State) (r : Reg) (b : Byte) : (s.setV r b).dirty = s.dirty := rfl
@[simp] theorem State.setV_key (s : State) (r : Reg) (b : Byte) : (s.setV r b).key = s.key := rfl
@[simp] theorem State.setV_halted (s : State) (r : Reg) (b : Byte) : (s.setV r b).halted = s.halted := rfl
@[simp] theorem State.setV_faultCode (s : State) (r : Reg) (b : Byte) : (s.setV r b).faultCode = s.faultCode := rfl
@[simp] theorem State.setV_faultPc (s : State) (r : Reg) (b : Byte) : (s.setV r b).faultPc = s.faultPc := rfl
@[simp] theorem State.setV_tone (s : State) (r : Reg) (b : Byte) : (s.setV r b).tone = s.tone := rfl
@[simp] theorem State.setV_render (s : State) (r : Reg) (b : Byte) : (s.setV r b).render = s.render := rfl
@[simp] theorem State.setV_booting (s : State) (r : Reg) (b : Byte) : (s.setV r b).booting = s.booting := rfl
@[simp] theorem State.setV_rnd (s : State) (r : Reg) (b : Byte) : (s.setV r b).rnd = s.rnd := rfl
@[simp] theorem State.setV_inputs (s : State) (r : Reg) (b : Byte) : (s.setV r b).inputs = s.inputs := rfl
@[simp] theorem State.setV_polls (s : State) (r : Reg) (b : Byte) : (s.setV r b).polls = s.polls := rfl

/-! #### `memWrite` -/

@[simp] theorem State.memWrite_v (s : State) (a : Addr) (b : Byte) : (s.memWrite a b).v = s.v := rfl
@[simp] theorem State.memWrite_i (s : State) (a : Addr) (b : Byte) : (s.memWrite a b).i = s.i := rfl
@[simp] theorem State.memWrite_pc (s : State) (a : Addr) (b : Byte) : (s.memWrite a b).pc = s.pc := rfl
@[simp] theorem State.memWrite_sp (s : State) (a : Addr) (b : Byte) : (s.memWrite a b).sp = s.sp := rfl
@[simp] theorem State.memWrite_stack (s : State) (a : Addr) (b : Byte) : (s.memWrite a b).stack = s.stack := rfl
@[simp] theorem State.memWrite_dt (s : State) (a : Addr) (b : Byte) : (s.memWrite a b).dt = s.dt := rfl
@[simp] theorem State.memWrite_st (s : State) (a : Addr) (b : Byte) : (s.memWrite a b).st = s.st := rfl
@[simp] theorem State.memWrite_mem (s : State) (a : Addr) (b : Byte) : (s.memWrite a b).mem = s.mem.write a.toNat b := rfl
@[simp] theorem State.memWrite_fb (s : State) (a : Addr) (b : Byte) : (s.memWrite a b).fb = s.fb := rfl
@[simp] theorem State.memWrite_dirty (s : State) (a : Addr) (b : Byte) : (s.memWrite a b).dirty = s.dirty := rfl
@[simp] theorem State.memWrite_key (s : State) (a : Addr) (b : Byte) : (s.memWrite a b).key = s.key := rfl
@[simp] theorem State.memWrite_halted (s : State) (a : Addr) (b : Byte) : (s.memWrite a b).halted = s.halted := rfl
@[simp] theorem State.memWrite_faultCode (s : State) (a : Addr) (b : Byte) : (s.memWrite a b).faultCode = s.faultCode := rfl
@[simp] theorem State.memWrite_faultPc (s : State) (a : Addr) (b : Byte) : (s.memWrite a b).faultPc = s.faultPc := rfl
@[simp] theorem State.memWrite_tone (s : State) (a : Addr) (b : Byte) : (s.memWrite a b).tone = s.tone := rfl
@[simp] theorem State.memWrite_render (s : State) (a : Addr) (b : Byte) : (s.memWrite a b).render = s.render := rfl
@[simp] theorem State.memWrite_booting (s : State) (a : Addr) (b : Byte) : (s.memWrite a b).booting = s.booting := rfl
@[simp] theorem State.memWrite_rnd (s : State) (a : Addr) (b : Byte) : (s.memWrite a b).rnd = s.rnd := rfl
@[simp] theorem State.memWrite_inputs (s : State) (a : Addr) (b : Byte) : (s.memWrite a b).inputs = s.inputs := rfl
@[simp] theorem State.memWrite_polls (s : State) (a : Addr) (b : Byte) : (s.memWrite a b).polls = s.polls := rfl

/-! #### `jump` -/

@[simp] theorem State.jump_v (s : State) (a : Addr) : (s.jump a).v = s.v := rfl
@[simp] theorem State.jump_i (s : State) (a : Addr) : (s.jump a).i = s.i := rfl
@[simp] theorem State.jump_pc (s : State) (a : Addr) : (s.jump a).pc = a := rfl
@[simp] theorem State.jump_sp (s : State) (a : Addr) : (s.jump a).sp = s.sp := rfl
@[simp] theorem State.jump_stack (s : State) (a : Addr) : (s.jump a).stack = s.stack := rfl
@[simp] theorem State.jump_dt (s : State) (a : Addr) : (s.jump a).dt = s.dt := rfl
@[simp] theorem State.jump_st (s : State) (a : Addr) : (s.jump a).st = s.st := rfl
@[simp] theorem State.jump_mem (s : State) (a : Addr) : (s.jump a).mem = s.mem := rfl
@[simp] theorem State.jump_fb (s : State) (a : Addr) : (s.jump a).fb = s.fb := rfl
@[simp] theorem State.jump_dirty (s : State) (a : Addr) : (s.jump a).dirty = s.dirty := rfl
@[simp] theorem State.jump_key (s : State) (a : Addr) : (s.jump a).key = s.key := rfl
@[simp] theorem State.jump_halted (s : State) (a : Addr) : (s.jump a).halted = s.halted := rfl
@[simp] theorem State.jump_faultCode (s : State) (a : Addr) : (s.jump a).faultCode = s.faultCode := rfl
@[simp] theorem State.jump_faultPc (s : State) (a : Addr) : (s.jump a).faultPc = s.faultPc := rfl
@[simp] theorem State.jump_tone (s : State) (a : Addr) : (s.jump a).tone = s.tone := rfl
@[simp] theorem State.jump_render (s : State) (a : Addr) : (s.jump a).render = s.render := rfl
@[simp] theorem State.jump_booting (s : State) (a : Addr) : (s.jump a).booting = s.booting := rfl
@[simp] theorem State.jump_rnd (s : State) (a : Addr) : (s.jump a).rnd = s.rnd := rfl
@[simp] theorem State.jump_inputs (s : State) (a : Addr) : (s.jump a).inputs = s.inputs := rfl
@[simp] theorem State.jump_polls (s : State) (a : Addr) : (s.jump a).polls = s.polls := rfl

/-! #### `fetchAdvance` -/

@[simp] theorem State.fetchAdvance_v (s : State) : (s.fetchAdvance).v = s.v := rfl
@[simp] theorem State.fetchAdvance_i (s : State) : (s.fetchAdvance).i = s.i := rfl
@[simp] theorem State.fetchAdvance_pc (s : State) : (s.fetchAdvance).pc = s.pc + 2#12 := rfl
@[simp] theorem State.fetchAdvance_sp (s : State) : (s.fetchAdvance).sp = s.sp := rfl
@[simp] theorem State.fetchAdvance_stack (s : State) : (s.fetchAdvance).stack = s.stack := rfl
@[simp] theorem State.fetchAdvance_dt (s : State) : (s.fetchAdvance).dt = s.dt := rfl
@[simp] theorem State.fetchAdvance_st (s : State) : (s.fetchAdvance).st = s.st := rfl
@[simp] theorem State.fetchAdvance_mem (s : State) : (s.fetchAdvance).mem = s.mem := rfl
@[simp] theorem State.fetchAdvance_fb (s : State) : (s.fetchAdvance).fb = s.fb := rfl
@[simp] theorem State.fetchAdvance_dirty (s : State) : (s.fetchAdvance).dirty = s.dirty := rfl
@[simp] theorem State.fetchAdvance_key (s : State) : (s.fetchAdvance).key = s.key := rfl
@[simp] theorem State.fetchAdvance_halted (s : State) : (s.fetchAdvance).halted = s.halted := rfl
@[simp] theorem State.fetchAdvance_faultCode (s : State) : (s.fetchAdvance).faultCode = s.faultCode := rfl
@[simp] theorem State.fetchAdvance_faultPc (s : State) : (s.fetchAdvance).faultPc = s.faultPc := rfl
@[simp] theorem State.fetchAdvance_tone (s : State) : (s.fetchAdvance).tone = s.tone := rfl
@[simp] theorem State.fetchAdvance_render (s : State) : (s.fetchAdvance).render = s.render := rfl
@[simp] theorem State.fetchAdvance_booting (s : State) : (s.fetchAdvance).booting = s.booting := rfl
@[simp] theorem State.fetchAdvance_rnd (s : State) : (s.fetchAdvance).rnd = s.rnd := rfl
@[simp] theorem State.fetchAdvance_inputs (s : State) : (s.fetchAdvance).inputs = s.inputs := rfl
@[simp] theorem State.fetchAdvance_polls (s : State) : (s.fetchAdvance).polls = s.polls := rfl

/-! #### `push` -/

@[simp] theorem State.push_v (s : State) (h : s.sp.val < 16) : (s.push h).v = s.v := rfl
@[simp] theorem State.push_i (s : State) (h : s.sp.val < 16) : (s.push h).i = s.i := rfl
@[simp] theorem State.push_pc (s : State) (h : s.sp.val < 16) : (s.push h).pc = s.pc := rfl
@[simp] theorem State.push_sp (s : State) (h : s.sp.val < 16) : (s.push h).sp = ⟨s.sp.val + 1, Nat.succ_lt_succ h⟩ := rfl
@[simp] theorem State.push_stack (s : State) (h : s.sp.val < 16) : (s.push h).stack = s.stack.set s.sp.val s.pc h := rfl
@[simp] theorem State.push_dt (s : State) (h : s.sp.val < 16) : (s.push h).dt = s.dt := rfl
@[simp] theorem State.push_st (s : State) (h : s.sp.val < 16) : (s.push h).st = s.st := rfl
@[simp] theorem State.push_mem (s : State) (h : s.sp.val < 16) : (s.push h).mem = s.mem := rfl
@[simp] theorem State.push_fb (s : State) (h : s.sp.val < 16) : (s.push h).fb = s.fb := rfl
@[simp] theorem State.push_dirty (s : State) (h : s.sp.val < 16) : (s.push h).dirty = s.dirty := rfl
@[simp] theorem State.push_key (s : State) (h : s.sp.val < 16) : (s.push h).key = s.key := rfl
@[simp] theorem State.push_halted (s : State) (h : s.sp.val < 16) : (s.push h).halted = s.halted := rfl
@[simp] theorem State.push_faultCode (s : State) (h : s.sp.val < 16) : (s.push h).faultCode = s.faultCode := rfl
@[simp] theorem State.push_faultPc (s : State) (h : s.sp.val < 16) : (s.push h).faultPc = s.faultPc := rfl
@[simp] theorem State.push_tone (s : State) (h : s.sp.val < 16) : (s.push h).tone = s.tone := rfl
@[simp] theorem State.push_render (s : State) (h : s.sp.val < 16) : (s.push h).render = s.render := rfl
@[simp] theorem State.push_booting (s : State) (h : s.sp.val < 16) : (s.push h).booting = s.booting := rfl
@[simp] theorem State.push_rnd (s : State) (h : s.sp.val < 16) : (s.push h).rnd = s.rnd := rfl
@[simp] theorem State.push_inputs (s : State) (h : s.sp.val < 16) : (s.push h).inputs = s.inputs := rfl
@[simp] theorem State.push_polls (s : State) (h : s.sp.val < 16) : (s.push h).polls = s.polls := rfl

/-! #### `pop` -/

@[simp] theorem State.pop_v (s : State) (h : 0 < s.sp.val) : (s.pop h).v = s.v := rfl
@[simp] theorem State.pop_i (s : State) (h : 0 < s.sp.val) : (s.pop h).i = s.i := rfl
@[simp] theorem State.pop_pc (s : State) (h : 0 < s.sp.val) : (s.pop h).pc = s.top h := rfl
@[simp] theorem State.pop_sp (s : State) (h : 0 < s.sp.val) : (s.pop h).sp = ⟨s.sp.val - 1, by have := s.sp.isLt; omega⟩ := rfl
@[simp] theorem State.pop_stack (s : State) (h : 0 < s.sp.val) : (s.pop h).stack = s.stack := rfl
@[simp] theorem State.pop_dt (s : State) (h : 0 < s.sp.val) : (s.pop h).dt = s.dt := rfl
@[simp] theorem State.pop_st (s : State) (h : 0 < s.sp.val) : (s.pop h).st = s.st := rfl
@[simp] theorem State.pop_mem (s : State) (h : 0 < s.sp.val) : (s.pop h).mem = s.mem := rfl
@[simp] theorem State.pop_fb (s : State) (h : 0 < s.sp.val) : (s.pop h).fb = s.fb := rfl
@[simp] theorem State.pop_dirty (s : State) (h : 0 < s.sp.val) : (s.pop h).dirty = s.dirty := rfl
@[simp] theorem State.pop_key (s : State) (h : 0 < s.sp.val) : (s.pop h).key = s.key := rfl
@[simp] theorem State.pop_halted (s : State) (h : 0 < s.sp.val) : (s.pop h).halted = s.halted := rfl
@[simp] theorem State.pop_faultCode (s : State) (h : 0 < s.sp.val) : (s.pop h).faultCode = s.faultCode := rfl
@[simp] theorem State.pop_faultPc (s : State) (h : 0 < s.sp.val) : (s.pop h).faultPc = s.faultPc := rfl
@[simp] theorem State.pop_tone (s : State) (h : 0 < s.sp.val) : (s.pop h).tone = s.tone := rfl
@[simp] theorem State.pop_render (s : State) (h : 0 < s.sp.val) : (s.pop h).render = s.render := rfl
@[simp] theorem State.pop_booting (s : State) (h : 0 < s.sp.val) : (s.pop h).booting = s.booting := rfl
@[simp] theorem State.pop_rnd (s : State) (h : 0 < s.sp.val) : (s.pop h).rnd = s.rnd := rfl
@[simp] theorem State.pop_inputs (s : State) (h : 0 < s.sp.val) : (s.pop h).inputs = s.inputs := rfl
@[simp] theorem State.pop_polls (s : State) (h : 0 < s.sp.val) : (s.pop h).polls = s.polls := rfl

/-! #### `raise` -/

@[simp] theorem State.raise_v (s : State) (f : Condition) : (s.raise f).v = s.v := rfl
@[simp] theorem State.raise_i (s : State) (f : Condition) : (s.raise f).i = s.i := rfl
@[simp] theorem State.raise_pc (s : State) (f : Condition) : (s.raise f).pc = s.pc := rfl
@[simp] theorem State.raise_sp (s : State) (f : Condition) : (s.raise f).sp = s.sp := rfl
@[simp] theorem State.raise_stack (s : State) (f : Condition) : (s.raise f).stack = s.stack := rfl
@[simp] theorem State.raise_dt (s : State) (f : Condition) : (s.raise f).dt = s.dt := rfl
@[simp] theorem State.raise_st (s : State) (f : Condition) : (s.raise f).st = s.st := rfl
@[simp] theorem State.raise_mem (s : State) (f : Condition) : (s.raise f).mem = s.mem := rfl
@[simp] theorem State.raise_fb (s : State) (f : Condition) : (s.raise f).fb = s.fb := rfl
@[simp] theorem State.raise_dirty (s : State) (f : Condition) : (s.raise f).dirty = s.dirty := rfl
@[simp] theorem State.raise_key (s : State) (f : Condition) : (s.raise f).key = s.key := rfl
@[simp] theorem State.raise_halted (s : State) (f : Condition) : (s.raise f).halted = true := rfl
@[simp] theorem State.raise_faultCode (s : State) (f : Condition) : (s.raise f).faultCode = f.code := rfl
@[simp] theorem State.raise_faultPc (s : State) (f : Condition) : (s.raise f).faultPc = s.instrAddr := rfl
@[simp] theorem State.raise_tone (s : State) (f : Condition) : (s.raise f).tone = false := rfl
@[simp] theorem State.raise_render (s : State) (f : Condition) : (s.raise f).render = s.render := rfl
@[simp] theorem State.raise_booting (s : State) (f : Condition) : (s.raise f).booting = s.booting := rfl
@[simp] theorem State.raise_rnd (s : State) (f : Condition) : (s.raise f).rnd = s.rnd := rfl
@[simp] theorem State.raise_inputs (s : State) (f : Condition) : (s.raise f).inputs = s.inputs := rfl
@[simp] theorem State.raise_polls (s : State) (f : Condition) : (s.raise f).polls = s.polls := rfl

/-! #### `beginTick` -/

@[simp] theorem State.beginTick_v (s : State) (inp : TickInput) : (s.beginTick inp).v = s.v := rfl
@[simp] theorem State.beginTick_i (s : State) (inp : TickInput) : (s.beginTick inp).i = s.i := rfl
@[simp] theorem State.beginTick_pc (s : State) (inp : TickInput) : (s.beginTick inp).pc = s.pc := rfl
@[simp] theorem State.beginTick_sp (s : State) (inp : TickInput) : (s.beginTick inp).sp = s.sp := rfl
@[simp] theorem State.beginTick_stack (s : State) (inp : TickInput) : (s.beginTick inp).stack = s.stack := rfl
@[simp] theorem State.beginTick_dt (s : State) (inp : TickInput) : (s.beginTick inp).dt = countDown s.dt := rfl
@[simp] theorem State.beginTick_st (s : State) (inp : TickInput) : (s.beginTick inp).st = countDown s.st := rfl
@[simp] theorem State.beginTick_mem (s : State) (inp : TickInput) : (s.beginTick inp).mem = s.mem := rfl
@[simp] theorem State.beginTick_fb (s : State) (inp : TickInput) : (s.beginTick inp).fb = s.fb := rfl
@[simp] theorem State.beginTick_dirty (s : State) (inp : TickInput) : (s.beginTick inp).dirty = false := rfl
@[simp] theorem State.beginTick_key (s : State) (inp : TickInput) : (s.beginTick inp).key = inp.keys := rfl
@[simp] theorem State.beginTick_halted (s : State) (inp : TickInput) : (s.beginTick inp).halted = s.halted := rfl
@[simp] theorem State.beginTick_faultCode (s : State) (inp : TickInput) : (s.beginTick inp).faultCode = s.faultCode := rfl
@[simp] theorem State.beginTick_faultPc (s : State) (inp : TickInput) : (s.beginTick inp).faultPc = s.faultPc := rfl
@[simp] theorem State.beginTick_tone (s : State) (inp : TickInput) : (s.beginTick inp).tone = (countDown s.st != 0#8) := rfl
@[simp] theorem State.beginTick_render (s : State) (inp : TickInput) : (s.beginTick inp).render = (if s.dirty then some s.fb else none) := rfl
@[simp] theorem State.beginTick_booting (s : State) (inp : TickInput) : (s.beginTick inp).booting = false := rfl
@[simp] theorem State.beginTick_rnd (s : State) (inp : TickInput) : (s.beginTick inp).rnd = inp.rnd := rfl
@[simp] theorem State.beginTick_inputs (s : State) (inp : TickInput) : (s.beginTick inp).inputs = s.inputs := rfl
@[simp] theorem State.beginTick_polls (s : State) (inp : TickInput) : (s.beginTick inp).polls = s.polls := rfl

/-! #### `takeInput` -/

@[simp] theorem State.takeInput_v (s : State) : (s.takeInput).v = s.v := rfl
@[simp] theorem State.takeInput_i (s : State) : (s.takeInput).i = s.i := rfl
@[simp] theorem State.takeInput_pc (s : State) : (s.takeInput).pc = s.pc := rfl
@[simp] theorem State.takeInput_sp (s : State) : (s.takeInput).sp = s.sp := rfl
@[simp] theorem State.takeInput_stack (s : State) : (s.takeInput).stack = s.stack := rfl
@[simp] theorem State.takeInput_dt (s : State) : (s.takeInput).dt = s.dt := rfl
@[simp] theorem State.takeInput_st (s : State) : (s.takeInput).st = s.st := rfl
@[simp] theorem State.takeInput_mem (s : State) : (s.takeInput).mem = s.mem := rfl
@[simp] theorem State.takeInput_fb (s : State) : (s.takeInput).fb = s.fb := rfl
@[simp] theorem State.takeInput_dirty (s : State) : (s.takeInput).dirty = s.dirty := rfl
@[simp] theorem State.takeInput_key (s : State) : (s.takeInput).key = s.key := rfl
@[simp] theorem State.takeInput_halted (s : State) : (s.takeInput).halted = s.halted := rfl
@[simp] theorem State.takeInput_faultCode (s : State) : (s.takeInput).faultCode = s.faultCode := rfl
@[simp] theorem State.takeInput_faultPc (s : State) : (s.takeInput).faultPc = s.faultPc := rfl
@[simp] theorem State.takeInput_tone (s : State) : (s.takeInput).tone = s.tone := rfl
@[simp] theorem State.takeInput_render (s : State) : (s.takeInput).render = s.render := rfl
@[simp] theorem State.takeInput_booting (s : State) : (s.takeInput).booting = s.booting := rfl
@[simp] theorem State.takeInput_rnd (s : State) : (s.takeInput).rnd = s.rnd := rfl
@[simp] theorem State.takeInput_inputs (s : State) : (s.takeInput).inputs = s.inputs.tail := rfl
@[simp] theorem State.takeInput_polls (s : State) : (s.takeInput).polls = s.polls + 1 := rfl

/-! #### `haltedTick` -/

@[simp] theorem State.haltedTick_v (s : State) : (s.haltedTick).v = s.v := rfl
@[simp] theorem State.haltedTick_i (s : State) : (s.haltedTick).i = s.i := rfl
@[simp] theorem State.haltedTick_pc (s : State) : (s.haltedTick).pc = s.pc := rfl
@[simp] theorem State.haltedTick_sp (s : State) : (s.haltedTick).sp = s.sp := rfl
@[simp] theorem State.haltedTick_stack (s : State) : (s.haltedTick).stack = s.stack := rfl
@[simp] theorem State.haltedTick_dt (s : State) : (s.haltedTick).dt = s.dt := rfl
@[simp] theorem State.haltedTick_st (s : State) : (s.haltedTick).st = s.st := rfl
@[simp] theorem State.haltedTick_mem (s : State) : (s.haltedTick).mem = s.mem := rfl
@[simp] theorem State.haltedTick_fb (s : State) : (s.haltedTick).fb = s.fb := rfl
@[simp] theorem State.haltedTick_dirty (s : State) : (s.haltedTick).dirty = s.dirty := rfl
@[simp] theorem State.haltedTick_key (s : State) : (s.haltedTick).key = s.key := rfl
@[simp] theorem State.haltedTick_halted (s : State) : (s.haltedTick).halted = s.halted := rfl
@[simp] theorem State.haltedTick_faultCode (s : State) : (s.haltedTick).faultCode = s.faultCode := rfl
@[simp] theorem State.haltedTick_faultPc (s : State) : (s.haltedTick).faultPc = s.faultPc := rfl
@[simp] theorem State.haltedTick_tone (s : State) : (s.haltedTick).tone = s.tone := rfl
@[simp] theorem State.haltedTick_render (s : State) : (s.haltedTick).render = none := rfl
@[simp] theorem State.haltedTick_booting (s : State) : (s.haltedTick).booting = s.booting := rfl
@[simp] theorem State.haltedTick_rnd (s : State) : (s.haltedTick).rnd = s.rnd := rfl
@[simp] theorem State.haltedTick_inputs (s : State) : (s.haltedTick).inputs = s.inputs := rfl
@[simp] theorem State.haltedTick_polls (s : State) : (s.haltedTick).polls = s.polls := rfl

/-! #### `assertRst` -/

@[simp] theorem State.assertRst_v (s : State) : (s.assertRst).v = State.reset.v := rfl
@[simp] theorem State.assertRst_i (s : State) : (s.assertRst).i = State.reset.i := rfl
@[simp] theorem State.assertRst_pc (s : State) : (s.assertRst).pc = State.reset.pc := rfl
@[simp] theorem State.assertRst_sp (s : State) : (s.assertRst).sp = State.reset.sp := rfl
@[simp] theorem State.assertRst_stack (s : State) : (s.assertRst).stack = State.reset.stack := rfl
@[simp] theorem State.assertRst_dt (s : State) : (s.assertRst).dt = State.reset.dt := rfl
@[simp] theorem State.assertRst_st (s : State) : (s.assertRst).st = State.reset.st := rfl
@[simp] theorem State.assertRst_mem (s : State) : (s.assertRst).mem = State.reset.mem := rfl
@[simp] theorem State.assertRst_fb (s : State) : (s.assertRst).fb = State.reset.fb := rfl
@[simp] theorem State.assertRst_dirty (s : State) : (s.assertRst).dirty = State.reset.dirty := rfl
@[simp] theorem State.assertRst_key (s : State) : (s.assertRst).key = State.reset.key := rfl
@[simp] theorem State.assertRst_halted (s : State) : (s.assertRst).halted = State.reset.halted := rfl
@[simp] theorem State.assertRst_faultCode (s : State) : (s.assertRst).faultCode = State.reset.faultCode := rfl
@[simp] theorem State.assertRst_faultPc (s : State) : (s.assertRst).faultPc = State.reset.faultPc := rfl
@[simp] theorem State.assertRst_tone (s : State) : (s.assertRst).tone = State.reset.tone := rfl
@[simp] theorem State.assertRst_render (s : State) : (s.assertRst).render = State.reset.render := rfl
@[simp] theorem State.assertRst_booting (s : State) : (s.assertRst).booting = State.reset.booting := rfl
@[simp] theorem State.assertRst_rnd (s : State) : (s.assertRst).rnd = State.reset.rnd := rfl
@[simp] theorem State.assertRst_inputs (s : State) : (s.assertRst).inputs = s.inputs := rfl
@[simp] theorem State.assertRst_polls (s : State) : (s.assertRst).polls = s.polls := rfl

end Sys2Proof.Machine
end

