-- ==== Sys2Proof/Laws/Ops.lean ====
section
/-! SUPPORT. Sys2Proof/Laws/Ops.lean: what each shared operation over registers, memory, the stack and the screen does, said once. -/
namespace Sys2Proof.Machine

/-! ### Registers and bytes -/

@[simp] theorem State.getV_setV (s : State) (r : Reg) (b : Byte) (r' : Reg) :
    (s.setV r b).getV r' = if r' = r then b else s.getV r' := by
  by_cases h : r' = r
  · subst h; simp [State.getV, State.setV]
  · have hn : r.toNat ≠ r'.toNat := fun e => h (BitVec.eq_of_toNat_eq e.symm)
    simp [State.getV, State.setV, h, hn]

@[simp] theorem State.memRead_memWrite (s : State) (a : Addr) (b : Byte) (a' : Addr) :
    (s.memWrite a b).memRead a' = if a' = a then b else s.memRead a' := by
  simp [State.memRead, State.memWrite, Memory.read_write, ← BitVec.toNat_inj]

@[simp] theorem State.getV_memWrite (s : State) (a : Addr) (b : Byte) (r : Reg) :
    (s.memWrite a b).getV r = s.getV r := rfl
@[simp] theorem State.memRead_setV (s : State) (r : Reg) (b : Byte) (a : Addr) :
    (s.setV r b).memRead a = s.memRead a := rfl
@[simp] theorem State.getV_jump (s : State) (a : Addr) (r : Reg) : (s.jump a).getV r = s.getV r := rfl
@[simp] theorem State.memRead_jump (s : State) (a a' : Addr) : (s.jump a).memRead a' = s.memRead a' := rfl
@[simp] theorem State.getV_raise (s : State) (f : Condition) (r : Reg) : (s.raise f).getV r = s.getV r := rfl
@[simp] theorem State.memRead_raise (s : State) (f : Condition) (a : Addr) : (s.raise f).memRead a = s.memRead a := rfl
@[simp] theorem State.getV_fetchAdvance (s : State) (r : Reg) : s.fetchAdvance.getV r = s.getV r := rfl
@[simp] theorem State.memRead_fetchAdvance (s : State) (a : Addr) : s.fetchAdvance.memRead a = s.memRead a := rfl
@[simp] theorem State.getV_beginTick (s : State) (inp : TickInput) (r : Reg) : (s.beginTick inp).getV r = s.getV r := rfl
@[simp] theorem State.memRead_beginTick (s : State) (inp : TickInput) (a : Addr) :
    (s.beginTick inp).memRead a = s.memRead a := rfl

/-- Writing a byte keeps the canonical form of memory. -/
theorem State.memWrite_wf {s : State} (a : Addr) (b : Byte) (h : s.mem.wf) : (s.memWrite a b).mem.wf :=
  Memory.write_wf a.isLt h

/-- The result goes into V[x] and the flag into VF, the flag last (R93). -/
theorem State.getV_setResultFlag (s : State) (x : Reg) (b : Byte) (c : Bool) (r : Reg) :
    (s.setResultFlag x b c).getV r = if r = regF then flagByte c else if r = x then b else s.getV r := by
  simp [State.setResultFlag]

/-- A skip is a jump by two or nothing. -/
theorem State.skipIf_eq (s : State) (c : Bool) : s.skipIf c = s.jump (if c then s.pc + 2#12 else s.pc) := by
  cases c <;> rfl

/-! ### Block transfer -/

theorem State.storeRegs_succ (k : Nat) (s : State) :
    State.storeRegs (k + 1) s =
      (State.storeRegs k s).memWrite ((State.storeRegs k s).indexed k) ((State.storeRegs k s).getV (BitVec.ofNat 4 k)) := rfl

theorem State.loadRegs_succ (k : Nat) (s : State) :
    State.loadRegs (k + 1) s =
      (State.loadRegs k s).setV (BitVec.ofNat 4 k) ((State.loadRegs k s).memRead ((State.loadRegs k s).indexed k)) := rfl

/-- A block store changes memory alone. -/
theorem State.storeRegs_eq (n : Nat) (s : State) : State.storeRegs n s = { s with mem := (State.storeRegs n s).mem } := by
  induction n with
  | zero => rfl
  | succ k ih => rw [State.storeRegs_succ, ih]; rfl

/-- A block load changes V registers alone. -/
theorem State.loadRegs_eq (n : Nat) (s : State) : State.loadRegs n s = { s with v := (State.loadRegs n s).v } := by
  induction n with
  | zero => rfl
  | succ k ih => rw [State.loadRegs_succ, ih]; rfl

theorem State.getV_storeRegs (n : Nat) (s : State) (r : Reg) : (State.storeRegs n s).getV r = s.getV r := by
  rw [State.storeRegs_eq]; rfl

theorem State.indexed_storeRegs (n : Nat) (s : State) (k : Nat) : (State.storeRegs n s).indexed k = s.indexed k := by
  rw [State.storeRegs_eq]; rfl

theorem State.memRead_loadRegs (n : Nat) (s : State) (a : Addr) : (State.loadRegs n s).memRead a = s.memRead a := by
  rw [State.loadRegs_eq]; rfl

theorem State.indexed_loadRegs (n : Nat) (s : State) (k : Nat) : (State.loadRegs n s).indexed k = s.indexed k := by
  rw [State.loadRegs_eq]; rfl

/-- An address is `I + k` for k below 4096 exactly when it lies k above I modulo 4096. -/
theorem State.eq_indexed_iff (s : State) (a : Addr) {k : Nat} (hk : k < 4096) :
    a = s.indexed k ↔ (a - s.i).toNat = k := by
  have h1 := a.isLt
  have h2 := s.i.isLt
  simp only [State.indexed, ← BitVec.toNat_inj, BitVec.toNat_add, BitVec.toNat_sub, BitVec.toNat_ofNat]
  omega

/-- What every address reads as after a block store: V[k] at I + k for k below n, the old byte elsewhere. -/
theorem State.memRead_storeRegs {n : Nat} (hn : n ≤ 4096) (s : State) (a : Addr) :
    (State.storeRegs n s).memRead a =
      if (a - s.i).toNat < n then s.getV (BitVec.ofNat 4 (a - s.i).toNat) else s.memRead a := by
  induction n with
  | zero => simp [State.storeRegs]
  | succ k ih =>
    rw [State.storeRegs_succ, State.memRead_memWrite, State.indexed_storeRegs, State.getV_storeRegs, ih (by omega)]
    by_cases h : (a - s.i).toNat = k
    · rw [if_pos ((s.eq_indexed_iff a (by omega)).2 h), if_pos (by omega), h]
    · rw [if_neg (fun e => h ((s.eq_indexed_iff a (by omega)).1 e))]
      by_cases h' : (a - s.i).toNat < k
      · rw [if_pos h', if_pos (by omega)]
      · rw [if_neg h', if_neg (by omega)]

/-- A block store keeps the canonical form of memory. -/
theorem State.storeRegs_wf {s : State} (n : Nat) (h : s.mem.wf) : (State.storeRegs n s).mem.wf := by
  induction n with
  | zero => exact h
  | succ k ih => exact State.memWrite_wf _ _ ih

/-- What every register holds after a block load: the byte at I + r below n, its old value elsewhere. -/
theorem State.getV_loadRegs {n : Nat} (hn : n ≤ 16) (s : State) (r : Reg) :
    (State.loadRegs n s).getV r = if r.toNat < n then s.memRead (s.indexed r.toNat) else s.getV r := by
  induction n with
  | zero => simp [State.loadRegs]
  | succ k ih =>
    have hr : r = BitVec.ofNat 4 k ↔ r.toNat = k := by
      rw [← BitVec.toNat_inj, BitVec.toNat_ofNat, Nat.mod_eq_of_lt (by omega)]
    rw [State.loadRegs_succ, State.getV_setV, State.memRead_loadRegs, State.indexed_loadRegs, ih (by omega)]
    by_cases h : r.toNat = k
    · rw [if_pos (hr.2 h), if_pos (by omega), h]
    · rw [if_neg (fun e => h (hr.1 e))]
      by_cases h' : r.toNat < k
      · rw [if_pos h', if_pos (by omega)]
      · rw [if_neg h', if_neg (by omega)]

/-! ### Pixels and sprites -/

theorem pixel_xorPixel (fb : Framebuffer) {x y px py : Nat} (bit : Bool) (hx : x < 64) (hpx : px < 64) (hpy : py < 32) :
    pixel (xorPixel fb px py bit) x y = (pixel fb x y ^^ (bit && decide (x = px ∧ y = py))) := by
  have key : pixelIndex px py = pixelIndex x y ↔ x = px ∧ y = py := by simp only [pixelIndex]; omega
  cases bit with
  | false => simp [xorPixel, pixel]
  | true =>
    have hlt : pixelIndex px py < 2048 := by simp only [pixelIndex]; omega
    simp [xorPixel, pixel, BitVec.getLsbD_xor, BitVec.getLsbD_twoPow, hlt, key]

/-- The column offset of a pixel from a sprite's left edge. -/
def colOf (x0 : Byte) (px : Nat) : Nat := (px + 64 - x0.toNat % 64) % 64
/-- The row offset of a pixel from a sprite's top edge. -/
def rowOf (y0 : Byte) (py : Nat) : Nat := (py + 32 - y0.toNat % 32) % 32

theorem eq_col_iff (x0 : Byte) {px j : Nat} (hp : px < 64) (hj : j < 64) :
    px = (x0.toNat + j) % 64 ↔ colOf x0 px = j := by unfold colOf; omega

theorem eq_row_iff (y0 : Byte) {py r : Nat} (hp : py < 32) (hr : r < 32) :
    py = (y0.toNat + r) % 32 ↔ rowOf y0 py = r := by unfold rowOf; omega

/-- The pixels after the first `j` pixels of a row: those the row covers are XORed with their bits. -/
theorem pixel_drawRow (x0 y0 b : Byte) {r j : Nat} (hj : j ≤ 64) (hr : r < 32) (c : Canvas) {x y : Nat}
    (hx : x < 64) (hy : y < 32) :
    pixel (drawRow x0 y0 b r j c).1 x y =
      (pixel c.1 x y ^^ (decide (colOf x0 x < j ∧ rowOf y0 y = r) && b.getLsbD (7 - colOf x0 x))) := by
  induction j with
  | zero => simp [drawRow]
  | succ j ih =>
    have h1 := eq_col_iff x0 hx (show j < 64 by omega)
    have h2 := eq_row_iff y0 hy hr
    rw [drawRow, drawPixel, pixel_xorPixel _ _ hx (Nat.mod_lt _ (by omega)) (Nat.mod_lt _ (by omega)), ih (by omega)]
    simp only [h1, h2]
    by_cases hc : colOf x0 x = j
    · by_cases hr' : rowOf y0 y = r <;> simp [hc, hr']
    · have : colOf x0 x < j + 1 ↔ colOf x0 x < j := by omega
      simp [hc, this]

/-- The collision after the first `j` pixels of a row: some covered pixel with bit 1 was set before the row. -/
theorem collision_drawRow (x0 y0 b : Byte) {r j : Nat} (hj : j ≤ 64) (hr : r < 32) (c : Canvas) :
    (drawRow x0 y0 b r j c).2 = true ↔
      c.2 = true ∨ ∃ x y, x < 64 ∧ y < 32 ∧ colOf x0 x < j ∧ rowOf y0 y = r ∧ b.getLsbD (7 - colOf x0 x) = true ∧
        pixel c.1 x y = true := by
  induction j with
  | zero => simp [drawRow]
  | succ j ih =>
    have hx : (x0.toNat + j) % 64 < 64 := Nat.mod_lt _ (by omega)
    have hy : (y0.toNat + r) % 32 < 32 := Nat.mod_lt _ (by omega)
    have hc := (eq_col_iff x0 hx (show j < 64 by omega)).1 rfl
    have hw := (eq_row_iff y0 hy hr).1 rfl
    rw [drawRow, drawPixel, Bool.or_eq_true, ih (by omega), Bool.and_eq_true, pixel_drawRow x0 y0 b (by omega) hr c hx hy, hc]
    simp only [Nat.lt_irrefl, false_and, decide_false, Bool.false_and, Bool.xor_false]
    constructor
    · rintro ((h | ⟨x, y, h1, h2, h3, h4⟩) | ⟨hb, hp⟩)
      · exact .inl h
      · exact .inr ⟨x, y, h1, h2, by omega, h4⟩
      · exact .inr ⟨_, _, hx, hy, by omega, hw, by rw [hc]; exact hb, hp⟩
    · rintro (h | ⟨x, y, h1, h2, h3, h4, h5, h6⟩)
      · exact .inl (.inl h)
      · by_cases hcx : colOf x0 x = j
        · have e1 := (eq_col_iff x0 h1 (show j < 64 by omega)).2 hcx
          have e2 := (eq_row_iff y0 h2 hr).2 h4
          subst e1 e2
          exact .inr ⟨by rw [← hcx]; exact h5, h6⟩
        · exact .inl (.inr ⟨x, y, h1, h2, by omega, h4, h5, h6⟩)

/-- The bit that a sprite of `n` rows at (V-values `x0`, `y0`) XORs into pixel (px, py) (43_memory_sprites.md R113): the pixel lies in
column j of row r when px = (x0 + j) mod 64 and py = (y0 + r) mod 32, and its bit is bit 7 - j of the byte at I + r. -/
def State.spriteBit (s : State) (x0 y0 : Byte) (n px py : Nat) : Bool :=
  let j := (px + 64 - x0.toNat % 64) % 64
  let r := (py + 32 - y0.toNat % 32) % 32
  decide (j < 8) && decide (r < n) && (s.memRead (s.indexed r)).getLsbD (7 - j)

theorem State.spriteBit_eq (s : State) (x0 y0 : Byte) (n px py : Nat) :
    s.spriteBit x0 y0 n px py =
      (decide (colOf x0 px < 8) && decide (rowOf y0 py < n) &&
        (s.memRead (s.indexed (rowOf y0 py))).getLsbD (7 - colOf x0 px)) := rfl

/-- The pixels after `n` rows of a sprite: each is XORed with the sprite's bit at it. -/
theorem State.pixel_drawRows (s : State) (x0 y0 : Byte) {n : Nat} (hn : n ≤ 32) (c : Canvas) {x y : Nat}
    (hx : x < 64) (hy : y < 32) :
    pixel (s.drawRows x0 y0 n c).1 x y = (pixel c.1 x y ^^ s.spriteBit x0 y0 n x y) := by
  induction n with
  | zero => simp [State.drawRows, State.spriteBit_eq]
  | succ r ih =>
    rw [State.drawRows, pixel_drawRow x0 y0 _ (by omega) (by omega) _ hx hy, ih (by omega)]
    simp only [State.spriteBit_eq]
    by_cases h : rowOf y0 y = r
    · simp [h]
    · have : rowOf y0 y < r + 1 ↔ rowOf y0 y < r := by omega
      simp [h, this]

/-- The collision after `n` rows of a sprite: some pixel under a 1-bit of the sprite was set before the draw. -/
theorem State.collision_drawRows (s : State) (x0 y0 : Byte) {n : Nat} (hn : n ≤ 32) (c : Canvas) :
    (s.drawRows x0 y0 n c).2 = true ↔
      c.2 = true ∨ ∃ x y, x < 64 ∧ y < 32 ∧ s.spriteBit x0 y0 n x y = true ∧ pixel c.1 x y = true := by
  induction n with
  | zero => simp [State.drawRows, State.spriteBit_eq]
  | succ r ih =>
    rw [State.drawRows, collision_drawRow x0 y0 _ (by omega) (by omega), ih (by omega)]
    constructor
    · rintro ((h | ⟨x, y, hx, hy, hb, hp⟩) | ⟨x, y, hx, hy, h1, h2, h3, h4⟩)
      · exact .inl h
      · refine .inr ⟨x, y, hx, hy, ?_, hp⟩
        simp only [State.spriteBit_eq, Bool.and_eq_true, decide_eq_true_eq] at hb ⊢
        exact ⟨⟨hb.1.1, by omega⟩, hb.2⟩
      · rw [State.pixel_drawRows s x0 y0 (by omega) c hx hy] at h4
        refine .inr ⟨x, y, hx, hy, ?_, ?_⟩
        · simp only [State.spriteBit_eq, Bool.and_eq_true, decide_eq_true_eq]
          exact ⟨⟨h1, by omega⟩, by rw [h2]; exact h3⟩
        · have : s.spriteBit x0 y0 r x y = false := by simp [State.spriteBit_eq, h2]
          simpa [this] using h4
    · rintro (h | ⟨x, y, hx, hy, hb, hp⟩)
      · exact .inl (.inl h)
      · simp only [State.spriteBit_eq, Bool.and_eq_true, decide_eq_true_eq] at hb
        by_cases hr : rowOf y0 y = r
        · refine .inr ⟨x, y, hx, hy, hb.1.1, hr, by rw [← hr]; exact hb.2, ?_⟩
          rw [State.pixel_drawRows s x0 y0 (by omega) c hx hy]
          have : s.spriteBit x0 y0 r x y = false := by simp [State.spriteBit_eq, hr]
          simpa [this] using hp
        · refine .inl (.inr ⟨x, y, hx, hy, ?_, hp⟩)
          simp only [State.spriteBit_eq, Bool.and_eq_true, decide_eq_true_eq]
          exact ⟨⟨hb.1.1, by omega⟩, hb.2⟩

/-! ### Keys -/

/-- The scan finds nothing exactly when no key at or above `16 - n` is down. -/
theorem leastKeyFrom_eq_none {keys : Keypad} {n : Nat} (hn : n ≤ 16) :
    leastKeyFrom keys n = none ↔ ∀ k, 16 - n ≤ k → k < 16 → keys.getLsbD k = false := by
  induction n with
  | zero => simp [leastKeyFrom]; omega
  | succ n ih =>
    unfold leastKeyFrom
    split
    · rename_i h
      simp only [reduceCtorEq, false_iff, not_forall]
      exact ⟨15 - n, by omega, by omega, by simp [h]⟩
    · rename_i h
      rw [ih (by omega)]
      constructor
      · intro hk k h1 h2
        by_cases e : k = 15 - n
        · subst e; simpa using h
        · exact hk k (by omega) h2
      · exact fun hk k h1 h2 => hk k (by omega) h2

/-- The scan finds the least key at or above `16 - n` that is down. -/
theorem leastKeyFrom_eq_some {keys : Keypad} {n : Nat} (hn : n ≤ 16) {b : Byte} :
    leastKeyFrom keys n = some b ↔
      16 - n ≤ b.toNat ∧ b.toNat < 16 ∧ keys.getLsbD b.toNat = true ∧
        ∀ k, 16 - n ≤ k → k < b.toNat → keys.getLsbD k = false := by
  induction n with
  | zero => simp [leastKeyFrom]; omega
  | succ n ih =>
    have hv : (BitVec.ofNat 8 (15 - n)).toNat = 15 - n := by simp; omega
    unfold leastKeyFrom
    split
    · rename_i h
      constructor
      · intro e
        obtain rfl := Option.some.inj e
        rw [hv]
        exact ⟨by omega, by omega, h, fun k h1 h2 => by omega⟩
      · rintro ⟨h1, h2, h3, h4⟩
        have : b.toNat = 15 - n := by
          by_contra hne
          have := h4 (15 - n) (by omega) (by omega)
          simp [this] at h
        rw [← this]; simp
    · rename_i h
      rw [ih (by omega)]
      constructor
      · rintro ⟨h1, h2, h3, h4⟩
        refine ⟨by omega, h2, h3, fun k hk1 hk2 => ?_⟩
        by_cases e : k = 15 - n
        · subst e; simpa using h
        · exact h4 k (by omega) hk2
      · rintro ⟨h1, h2, h3, h4⟩
        have : b.toNat ≠ 15 - n := fun e => by rw [e] at h3; exact h h3
        exact ⟨by omega, h2, h3, fun k hk1 hk2 => h4 k (by omega) hk2⟩

/-- No key is pressed exactly when the snapshot is zero. -/
theorem leastKey_eq_none {keys : Keypad} : leastKey keys = none ↔ keys = 0#16 := by
  rw [leastKey, leastKeyFrom_eq_none (by omega)]
  constructor
  · intro h
    apply BitVec.eq_of_getLsbD_eq
    intro k hk
    simpa using h k (by omega) hk
  · rintro rfl; simp

theorem leastKey_eq_some {keys : Keypad} {b : Byte} :
    leastKey keys = some b ↔
      b.toNat < 16 ∧ keys.getLsbD b.toNat = true ∧ ∀ k, k < b.toNat → keys.getLsbD k = false := by
  rw [leastKey, leastKeyFrom_eq_some (by omega)]
  simp

theorem keyIndex_ok {b : Byte} (h : b.toNat < 16) : keyIndex b = .ok ⟨b.toNat, h⟩ := by simp [keyIndex, h]

theorem keyIndex_error {b : Byte} (h : 15 < b.toNat) : keyIndex b = .error .invalidKeyIndex := by
  have : ¬ b.toNat < 16 := by omega
  simp [keyIndex, this]

end Sys2Proof.Machine
end

