-- ==== Sys2Proof/Laws/PerInstr.lean ====
section
/-! SUPPORT. Sys2Proof/Laws/PerInstr.lean: the family EncodingRow, one lemma for each constructor of Instr: the row of the opcode map that
bears an instruction's mnemonic covers its encoding, and no row covers the word of a well-formed NOP tag (30_encoding.md R64, R69). -/
namespace Sys2Proof.Laws.EncodingRow
open Sys2Proof

/-- The row of a well-formed instruction's mnemonic covers its word; the word of a NOP tag is covered by none. -/
def Statement (i : Instr) : Prop :=
  i.wf = true →
    (∃ r ∈ opcodeMap, r.mnemonic = i.mnemonic ∧ r.covers (encode i) = true) ∨
    (i = .nop (encode i) ∧ ∀ r ∈ opcodeMap, r.covers (encode i) = false)

theorem cls : Statement (.cls) := fun _ =>
  .inl ⟨⟨"CLS", 0xFFFF#16, 0x00E0#16⟩, by simp [opcodeMap], rfl, rfl⟩

theorem ret : Statement (.ret) := fun _ =>
  .inl ⟨⟨"RET", 0xFFFF#16, 0x00EE#16⟩, by simp [opcodeMap], rfl, rfl⟩

theorem jp (nnn : Addr) : Statement (.jp nnn) := fun _ =>
  .inl ⟨⟨"JP_nnn", 0xF000#16, 0x1000#16⟩, by simp [opcodeMap], rfl, (covers_major _ 0x1#4 _).trans (by simp [encode])⟩

theorem call (nnn : Addr) : Statement (.call nnn) := fun _ =>
  .inl ⟨⟨"CALL_nnn", 0xF000#16, 0x2000#16⟩, by simp [opcodeMap], rfl, (covers_major _ 0x2#4 _).trans (by simp [encode])⟩

theorem seVxKk (x : Reg) (kk : Byte) : Statement (.seVxKk x kk) := fun _ =>
  .inl ⟨⟨"SE_Vx__kk", 0xF000#16, 0x3000#16⟩, by simp [opcodeMap], rfl, (covers_major _ 0x3#4 _).trans (by simp [encode])⟩

theorem sneVxKk (x : Reg) (kk : Byte) : Statement (.sneVxKk x kk) := fun _ =>
  .inl ⟨⟨"SNE_Vx__kk", 0xF000#16, 0x4000#16⟩, by simp [opcodeMap], rfl, (covers_major _ 0x4#4 _).trans (by simp [encode])⟩

theorem seVxVy (x y : Reg) : Statement (.seVxVy x y) := fun _ =>
  .inl ⟨⟨"SE_Vx__Vy", 0xF00F#16, 0x5000#16⟩, by simp [opcodeMap], rfl, (covers_function _ 0x5#4 0x0#4 _).trans (by simp [encode])⟩

theorem ldVxKk (x : Reg) (kk : Byte) : Statement (.ldVxKk x kk) := fun _ =>
  .inl ⟨⟨"LD_Vx__kk", 0xF000#16, 0x6000#16⟩, by simp [opcodeMap], rfl, (covers_major _ 0x6#4 _).trans (by simp [encode])⟩

theorem addVxKk (x : Reg) (kk : Byte) : Statement (.addVxKk x kk) := fun _ =>
  .inl ⟨⟨"ADD_Vx__kk", 0xF000#16, 0x7000#16⟩, by simp [opcodeMap], rfl, (covers_major _ 0x7#4 _).trans (by simp [encode])⟩

theorem ldVxVy (x y : Reg) : Statement (.ldVxVy x y) := fun _ =>
  .inl ⟨⟨"LD_Vx__Vy", 0xF00F#16, 0x8000#16⟩, by simp [opcodeMap], rfl, (covers_function _ 0x8#4 0x0#4 _).trans (by simp [encode])⟩

theorem orVxVy (x y : Reg) : Statement (.orVxVy x y) := fun _ =>
  .inl ⟨⟨"OR_Vx__Vy", 0xF00F#16, 0x8001#16⟩, by simp [opcodeMap], rfl, (covers_function _ 0x8#4 0x1#4 _).trans (by simp [encode])⟩

theorem andVxVy (x y : Reg) : Statement (.andVxVy x y) := fun _ =>
  .inl ⟨⟨"AND_Vx__Vy", 0xF00F#16, 0x8002#16⟩, by simp [opcodeMap], rfl, (covers_function _ 0x8#4 0x2#4 _).trans (by simp [encode])⟩

theorem xorVxVy (x y : Reg) : Statement (.xorVxVy x y) := fun _ =>
  .inl ⟨⟨"XOR_Vx__Vy", 0xF00F#16, 0x8003#16⟩, by simp [opcodeMap], rfl, (covers_function _ 0x8#4 0x3#4 _).trans (by simp [encode])⟩

theorem addVxVy (x y : Reg) : Statement (.addVxVy x y) := fun _ =>
  .inl ⟨⟨"ADD_Vx__Vy", 0xF00F#16, 0x8004#16⟩, by simp [opcodeMap], rfl, (covers_function _ 0x8#4 0x4#4 _).trans (by simp [encode])⟩

theorem subVxVy (x y : Reg) : Statement (.subVxVy x y) := fun _ =>
  .inl ⟨⟨"SUB_Vx__Vy", 0xF00F#16, 0x8005#16⟩, by simp [opcodeMap], rfl, (covers_function _ 0x8#4 0x5#4 _).trans (by simp [encode])⟩

theorem shrVx (x y : Reg) : Statement (.shrVx x y) := fun _ =>
  .inl ⟨⟨"SHR_Vx____Vy", 0xF00F#16, 0x8006#16⟩, by simp [opcodeMap], rfl, (covers_function _ 0x8#4 0x6#4 _).trans (by simp [encode])⟩

theorem subnVxVy (x y : Reg) : Statement (.subnVxVy x y) := fun _ =>
  .inl ⟨⟨"SUBN_Vx__Vy", 0xF00F#16, 0x8007#16⟩, by simp [opcodeMap], rfl, (covers_function _ 0x8#4 0x7#4 _).trans (by simp [encode])⟩

theorem shlVx (x y : Reg) : Statement (.shlVx x y) := fun _ =>
  .inl ⟨⟨"SHL_Vx____Vy", 0xF00F#16, 0x800E#16⟩, by simp [opcodeMap], rfl, (covers_function _ 0x8#4 0xE#4 _).trans (by simp [encode])⟩

theorem sneVxVy (x y : Reg) : Statement (.sneVxVy x y) := fun _ =>
  .inl ⟨⟨"SNE_Vx__Vy", 0xF00F#16, 0x9000#16⟩, by simp [opcodeMap], rfl, (covers_function _ 0x9#4 0x0#4 _).trans (by simp [encode])⟩

theorem ldINnn (nnn : Addr) : Statement (.ldINnn nnn) := fun _ =>
  .inl ⟨⟨"LD_I__nnn", 0xF000#16, 0xA000#16⟩, by simp [opcodeMap], rfl, (covers_major _ 0xA#4 _).trans (by simp [encode])⟩

theorem jpV0Nnn (nnn : Addr) : Statement (.jpV0Nnn nnn) := fun _ =>
  .inl ⟨⟨"JP_V0__nnn", 0xF000#16, 0xB000#16⟩, by simp [opcodeMap], rfl, (covers_major _ 0xB#4 _).trans (by simp [encode])⟩

theorem rndVxKk (x : Reg) (kk : Byte) : Statement (.rndVxKk x kk) := fun _ =>
  .inl ⟨⟨"RND_Vx__kk", 0xF000#16, 0xC000#16⟩, by simp [opcodeMap], rfl, (covers_major _ 0xC#4 _).trans (by simp [encode])⟩

theorem drw (x y : Reg) (n : Nibble) : Statement (.drw x y n) := fun _ =>
  .inl ⟨⟨"DRW_Vx__Vy__n", 0xF000#16, 0xD000#16⟩, by simp [opcodeMap], rfl, (covers_major _ 0xD#4 _).trans (by simp [encode])⟩

theorem skpVx (x : Reg) : Statement (.skpVx x) := fun _ =>
  .inl ⟨⟨"SKP_Vx", 0xF0FF#16, 0xE09E#16⟩, by simp [opcodeMap], rfl, (covers_low_byte _ 0xE#4 0x9E#8 _).trans (by simp [encode])⟩

theorem sknpVx (x : Reg) : Statement (.sknpVx x) := fun _ =>
  .inl ⟨⟨"SKNP_Vx", 0xF0FF#16, 0xE0A1#16⟩, by simp [opcodeMap], rfl, (covers_low_byte _ 0xE#4 0xA1#8 _).trans (by simp [encode])⟩

theorem ldVxDt (x : Reg) : Statement (.ldVxDt x) := fun _ =>
  .inl ⟨⟨"LD_Vx__DT", 0xF0FF#16, 0xF007#16⟩, by simp [opcodeMap], rfl, (covers_low_byte _ 0xF#4 0x07#8 _).trans (by simp [encode])⟩

theorem ldVxK (x : Reg) : Statement (.ldVxK x) := fun _ =>
  .inl ⟨⟨"LD_Vx__K", 0xF0FF#16, 0xF00A#16⟩, by simp [opcodeMap], rfl, (covers_low_byte _ 0xF#4 0x0A#8 _).trans (by simp [encode])⟩

theorem ldDtVx (x : Reg) : Statement (.ldDtVx x) := fun _ =>
  .inl ⟨⟨"LD_DT__Vx", 0xF0FF#16, 0xF015#16⟩, by simp [opcodeMap], rfl, (covers_low_byte _ 0xF#4 0x15#8 _).trans (by simp [encode])⟩

theorem ldStVx (x : Reg) : Statement (.ldStVx x) := fun _ =>
  .inl ⟨⟨"LD_ST__Vx", 0xF0FF#16, 0xF018#16⟩, by simp [opcodeMap], rfl, (covers_low_byte _ 0xF#4 0x18#8 _).trans (by simp [encode])⟩

theorem addIVx (x : Reg) : Statement (.addIVx x) := fun _ =>
  .inl ⟨⟨"ADD_I__Vx", 0xF0FF#16, 0xF01E#16⟩, by simp [opcodeMap], rfl, (covers_low_byte _ 0xF#4 0x1E#8 _).trans (by simp [encode])⟩

theorem ldFVx (x : Reg) : Statement (.ldFVx x) := fun _ =>
  .inl ⟨⟨"LD_F__Vx", 0xF0FF#16, 0xF029#16⟩, by simp [opcodeMap], rfl, (covers_low_byte _ 0xF#4 0x29#8 _).trans (by simp [encode])⟩

theorem ldBVx (x : Reg) : Statement (.ldBVx x) := fun _ =>
  .inl ⟨⟨"LD_B__Vx", 0xF0FF#16, 0xF033#16⟩, by simp [opcodeMap], rfl, (covers_low_byte _ 0xF#4 0x33#8 _).trans (by simp [encode])⟩

theorem ldMemVx (x : Reg) : Statement (.ldMemVx x) := fun _ =>
  .inl ⟨⟨"LD__I___Vx", 0xF0FF#16, 0xF055#16⟩, by simp [opcodeMap], rfl, (covers_low_byte _ 0xF#4 0x55#8 _).trans (by simp [encode])⟩

theorem ldVxMem (x : Reg) : Statement (.ldVxMem x) := fun _ =>
  .inl ⟨⟨"LD_Vx___I", 0xF0FF#16, 0xF065#16⟩, by simp [opcodeMap], rfl, (covers_low_byte _ 0xF#4 0x65#8 _).trans (by simp [encode])⟩

/-- The rows that fix only the first nibble leave R69's list no word. -/
theorem nopWord_not_covered {w : Word} (h : nopWord w = true) {r : OpcodeRow} (hr : r ∈ opcodeMap) : r.covers w = false := by
  rw [Bool.eq_false_iff]
  intro hc
  rw [covers_iff hr] at hc
  simp only [opcodeMap, List.cons_append, List.nil_append, List.mem_cons, List.not_mem_nil, or_false] at hr
  rcases hr with rfl | rfl | rfl | rfl | rfl | rfl | rfl | rfl | rfl | rfl | rfl | rfl | rfl | rfl | rfl | rfl | rfl | rfl | rfl | rfl | rfl | rfl | rfl | rfl | rfl | rfl | rfl | rfl | rfl | rfl | rfl | rfl | rfl | rfl <;>
    simp only [BitVec.reduceEq, false_and, true_and, or_false, false_or] at hc <;>
    first
      | (subst hc; revert h; decide)
      | (simp only [nopWord, hc] at h; simp [fieldO, fieldN, fieldKK] at h)

theorem nop (w : Word) : Statement (.nop w) := fun h => .inr ⟨rfl, fun _ hr => nopWord_not_covered h hr⟩

end Sys2Proof.Laws.EncodingRow
end

