-- ==== Sys2Proof/Laws/Step.lean ====
section
/-! SUPPORT. Sys2Proof/Laws/Step.lean: what a tick is, halted and running, and what placing a word does. -/
namespace Sys2Proof.Machine

@[simp] theorem State.fetchWord_beginTick (s : State) (inp : TickInput) : (s.beginTick inp).fetchWord = s.fetchWord := rfl

@[simp] theorem State.fetchWord_takeInput (s : State) : s.takeInput.fetchWord = s.fetchWord := rfl

@[simp] theorem State.instrAddr_fetchAdvance (s : State) : s.fetchAdvance.instrAddr = s.pc := by
  simp [State.instrAddr]

@[simp] theorem State.instrAt_pc (s : State) : s.instrAt s.pc = decodeWord s.fetchWord := rfl

/-- The instruction at an address is the one its two bytes make (R44, R76). -/
theorem State.instrAt_eq (s : State) (a : Addr) : s.instrAt a = decodeWord (joinBytes (s.memRead a) (s.memRead (a + 1#12))) := rfl

theorem tickWith_halted {s : State} (h : s.halted = true) (inp : TickInput) : tickWith inp s = .next s.haltedTick := by
  simp [tickWith, h]

/-- A running tick is the instruction at PC, run on the state that steps 1 to 4 and the fetch advance leave (R73, R79). -/
theorem tickWith_running {s : State} (h : s.halted = false) (inp : TickInput) :
    tickWith inp s = exec (s.instrAt s.pc) (s.beginTick inp).fetchAdvance := by
  simp [tickWith, h]

theorem step_halted {s : State} (h : s.halted = true) : step s = .next s.haltedTick := by
  simp [step, h, tickWith_halted h]

theorem step_running {s : State} (h : s.halted = false) : step s = tickWith s.nextInput s.takeInput := by
  simp [step, h]

/-- An address is never its own successor, so the two bytes of a word never share a cell. -/
theorem addr_succ_ne (a : Addr) : a + 1#12 ≠ a := by bv_omega

/-- The word placed at PC is the word fetched next. -/
theorem State.fetchWord_placeWord (s : State) (hi lo : Byte) : (s.placeWord hi lo).fetchWord = joinBytes hi lo := by
  have h1 : (s.placeWord hi lo).memRead s.pc = hi := by
    show ((s.memWrite s.pc hi).memWrite (s.pc + 1#12) lo).memRead s.pc = hi
    simp [(addr_succ_ne s.pc).symm]
  have h2 : (s.placeWord hi lo).memRead (s.pc + 1#12) = lo := by
    show ((s.memWrite s.pc hi).memWrite (s.pc + 1#12) lo).memRead (s.pc + 1#12) = lo
    simp
  show joinBytes ((s.placeWord hi lo).memRead s.pc) ((s.placeWord hi lo).memRead (s.pc + 1#12)) = _
  rw [h1, h2]

/-- The word the opcode table numbers as `w` is the word fetched next. -/
theorem State.fetchWord_withFetchWord (s : State) (w : Nat) :
    (s.withFetchWord 16 w).fetchWord = BitVec.ofNat 16 w := by
  rw [State.withFetchWord, State.fetchWord_placeWord]
  apply BitVec.eq_of_toNat_eq
  simp only [joinBytes, BitVec.toNat_append, BitVec.toNat_ofNat, Nat.shiftLeft_eq]
  rw [← Nat.shiftLeft_eq, ← Nat.shiftLeft_add_eq_or_of_lt (by omega), Nat.shiftLeft_eq]
  omega

/-- The load port writes in the boot phase at 0x200 and above, and nothing otherwise (R34). -/
theorem State.loadPort_eq (s : State) (we : Bool) (addr : Addr) (data : Byte) :
    s.loadPort we addr data =
      if s.booting = true ∧ we = true ∧ Config.romBase ≤ addr.toNat then s.memWrite addr data else s := by
  simp [State.loadPort, and_assoc]

/-- The last poll of a run: step 1 of its tick with no render and the tone off, and nothing of steps 2 to 5 (R36); a halted block polls
nothing (R80). -/
theorem State.quitPoll_eq (s : State) (inp : TickInput) :
    (s.halted = true → s.quitPoll inp = s) ∧
    (s.halted = false → s.quitPoll inp =
      { s with key := inp.keys, rnd := inp.rnd, booting := false, render := none, tone := false }) := by
  constructor <;> intro h <;> simp [State.quitPoll, State.pollStep, h]

end Sys2Proof.Machine
end

