-- ==== Sys2Proof/Tests/Slice0.lean ====
section
/-! SUPPORT. Sys2Proof/Tests/Slice0.lean: the model's own tests. The expected values are those of spec/95_test_vectors.md (named by their
row there) or words written out from the patterns of 30_encoding.md R64; each test is one tick. After them a witness for the hypotheses
of every statement that has some. -/
namespace Sys2Proof.Tests
open Sys2Proof.Machine

/-! ### Helpers -/

/-- The next state of an outcome. -/
def nextOf (d : State) : Result → State
  | .next t => t
  | _ => d

/-- V registers given as a list from V0 up. -/
def withV (s : State) : Nat → List Byte → State
  | _, [] => s
  | k, b :: bs => withV (s.setV (BitVec.ofNat 4 k) b) (k + 1) bs

/-- Memory bytes given as a list from an address up. -/
def withMem (s : State) : Addr → List Byte → State
  | _, [] => s
  | a, b :: bs => withMem (s.memWrite a b) (a + 1#12) bs

/-- Reset with these first V registers. -/
def regs (l : List Byte) : State := withV State.reset 0 l

/-- No key, random byte zero. -/
def quiet : TickInput := { keys := 0#16, rnd := 0#8 }

/-- One tick that runs the word `w` at PC. -/
def tickOn (w : Nat) (s : State) (inp : TickInput := quiet) : State := nextOf s (tickWith inp (s.withFetchWord 16 w))

/-! ### Well-formed terms -/

theorem test_wf_rejects_cls_as_nop : (Instr.nop 0x00E0#16).wf = false := by decide
theorem test_wf_rejects_ret_as_nop : (Instr.nop 0x00EE#16).wf = false := by decide
theorem test_wf_rejects_jump_as_nop : (Instr.nop 0x1234#16).wf = false := by decide
theorem test_wf_rejects_5xy0_as_nop : (Instr.nop 0x5120#16).wf = false := by decide
theorem test_wf_rejects_9xy0_as_nop : (Instr.nop 0x9120#16).wf = false := by decide
theorem test_wf_rejects_8xyn_as_nop :
    ([0x8120#16, 0x8121#16, 0x8122#16, 0x8123#16, 0x8124#16, 0x8125#16, 0x8126#16, 0x8127#16, 0x812E#16].any
      fun w => (Instr.nop w).wf) = false := by decide
theorem test_wf_rejects_key_skips_as_nop : (Instr.nop 0xE19E#16).wf = false ∧ (Instr.nop 0xE1A1#16).wf = false := by decide
theorem test_wf_rejects_Fxkk_as_nop :
    ([0xF107#16, 0xF10A#16, 0xF115#16, 0xF118#16, 0xF11E#16, 0xF129#16, 0xF133#16, 0xF155#16, 0xF165#16].any
      fun w => (Instr.nop w).wf) = false := by decide
theorem test_wf_accepts_R69 :
    ([0x0000#16, 0x0123#16, 0x00FF#16, 0x5121#16, 0x912F#16, 0x8018#16, 0x801D#16, 0x801F#16, 0xE000#16, 0xE09F#16, 0xF000#16,
      0xF0FF#16].all fun w => (Instr.nop w).wf) = true := by decide
theorem test_wf_accepts_operands : (Instr.drw 0xF#4 0x0#4 0xF#4).wf = true ∧ (Instr.jp 0xFFF#12).wf = true := by decide

/-! ### Decoding: a word written out from R64 for every constructor -/

theorem test_decode_cls : decodeWord 0b0000000011100000#16 = .cls := by decide
theorem test_decode_ret : decodeWord 0b0000000011101110#16 = .ret := by decide
theorem test_decode_jp : decodeWord 0b0001_001000110100#16 = .jp 0x234#12 := by decide
theorem test_decode_call : decodeWord 0b0010_001100000001#16 = .call 0x301#12 := by decide
theorem test_decode_seVxKk : decodeWord 0b0011_0011_00010010#16 = .seVxKk 3#4 0x12#8 := by decide
theorem test_decode_sneVxKk : decodeWord 0b0100_0011_00010010#16 = .sneVxKk 3#4 0x12#8 := by decide
theorem test_decode_seVxVy : decodeWord 0b0101_0001_0010_0000#16 = .seVxVy 1#4 2#4 := by decide
theorem test_decode_ldVxKk : decodeWord 0b0110_1010_00111111#16 = .ldVxKk 0xA#4 0x3F#8 := by decide
theorem test_decode_addVxKk : decodeWord 0b0111_0000_11111111#16 = .addVxKk 0#4 0xFF#8 := by decide
theorem test_decode_ldVxVy : decodeWord 0b1000_0001_0010_0000#16 = .ldVxVy 1#4 2#4 := by decide
theorem test_decode_orVxVy : decodeWord 0b1000_0001_0010_0001#16 = .orVxVy 1#4 2#4 := by decide
theorem test_decode_andVxVy : decodeWord 0b1000_0001_0010_0010#16 = .andVxVy 1#4 2#4 := by decide
theorem test_decode_xorVxVy : decodeWord 0b1000_0001_0010_0011#16 = .xorVxVy 1#4 2#4 := by decide
theorem test_decode_addVxVy : decodeWord 0b1000_1010_1011_0100#16 = .addVxVy 0xA#4 0xB#4 := by decide
theorem test_decode_subVxVy : decodeWord 0b1000_1010_1011_0101#16 = .subVxVy 0xA#4 0xB#4 := by decide
theorem test_decode_shrVx : decodeWord 0b1000_0000_0111_0110#16 = .shrVx 0#4 7#4 := by decide
theorem test_decode_subnVxVy : decodeWord 0b1000_0000_0001_0111#16 = .subnVxVy 0#4 1#4 := by decide
theorem test_decode_shlVx : decodeWord 0b1000_0000_0111_1110#16 = .shlVx 0#4 7#4 := by decide
theorem test_decode_sneVxVy : decodeWord 0b1001_0001_0010_0000#16 = .sneVxVy 1#4 2#4 := by decide
theorem test_decode_ldINnn : decodeWord 0b1010_001100000000#16 = .ldINnn 0x300#12 := by decide
theorem test_decode_jpV0Nnn : decodeWord 0b1011_111111111111#16 = .jpV0Nnn 0xFFF#12 := by decide
theorem test_decode_rndVxKk : decodeWord 0b1100_0011_00001111#16 = .rndVxKk 3#4 0x0F#8 := by decide
theorem test_decode_drw : decodeWord 0b1101_1010_1011_0101#16 = .drw 0xA#4 0xB#4 5#4 := by decide
theorem test_decode_skpVx : decodeWord 0b1110_0010_10011110#16 = .skpVx 2#4 := by decide
theorem test_decode_sknpVx : decodeWord 0b1110_0010_10100001#16 = .sknpVx 2#4 := by decide
theorem test_decode_ldVxDt : decodeWord 0b1111_0011_00000111#16 = .ldVxDt 3#4 := by decide
theorem test_decode_ldVxK : decodeWord 0b1111_0011_00001010#16 = .ldVxK 3#4 := by decide
theorem test_decode_ldDtVx : decodeWord 0b1111_0011_00010101#16 = .ldDtVx 3#4 := by decide
theorem test_decode_ldStVx : decodeWord 0b1111_0011_00011000#16 = .ldStVx 3#4 := by decide
theorem test_decode_addIVx : decodeWord 0b1111_0010_00011110#16 = .addIVx 2#4 := by decide
theorem test_decode_ldFVx : decodeWord 0b1111_0010_00101001#16 = .ldFVx 2#4 := by decide
theorem test_decode_ldBVx : decodeWord 0b1111_0010_00110011#16 = .ldBVx 2#4 := by decide
theorem test_decode_ldMemVx : decodeWord 0b1111_0010_01010101#16 = .ldMemVx 2#4 := by decide
theorem test_decode_ldVxMem : decodeWord 0b1111_0010_01100101#16 = .ldVxMem 2#4 := by decide
theorem test_decode_nop : decodeWord 0b1000_0000_0001_1000#16 = .nop 0x8018#16 := by decide

theorem test_decode_bytes_high_first : decode [0x12#8, 0x34#8, 0x56#8] = .ok (.jp 0x234#12, [0x56#8]) := by decide
theorem test_decode_one_byte_refused : decode [0x12#8] = .error .truncated := by decide
theorem test_decodeTableWord : decodeTableWord 16 0xDAB5 = some (.drw 0xA#4 0xB#4 5#4) := by decide

/-! ### One tick of each instruction -/

theorem test_cls_D1 :
    let t := tickOn 0x00E0 { State.reset with fb := BitVec.allOnes 2048 }
    t.fb = 0#2048 ∧ t.dirty = true ∧ t.pc = 0x202#12 := by decide +kernel
theorem test_ret_C7 :
    let t := tickOn 0x00EE { State.reset with sp := 1, stack := State.reset.stack.set 0 0x202#12 }
    t.sp.val = 0 ∧ t.pc = 0x202#12 ∧ t.stack[0] = 0x202#12 := by decide
theorem test_ret_C8 :
    let t := tickOn 0x00EE State.reset
    t.faultCode = 2#2 ∧ t.faultPc = 0x200#12 ∧ t.pc = 0x202#12 ∧ t.halted = true := by decide
theorem test_jp_C1 : (tickOn 0x1234 State.reset).pc = 0x234#12 := by decide
theorem test_call_C5 :
    let t := tickOn 0x2300 { State.reset with pc := 0xFFE#12 }
    t.stack[0] = 0x000#12 ∧ t.sp.val = 1 ∧ t.pc = 0x300#12 := by decide
theorem test_call_C6 :
    let t := tickOn 0x2300 { State.reset with sp := 16 }
    t.faultCode = 1#2 ∧ t.faultPc = 0x200#12 ∧ t.pc = 0x202#12 ∧ t.sp.val = 16 ∧ t.halted = true := by decide
theorem test_seVxKk_C9_C10 :
    (tickOn 0x3312 (regs [0, 0, 0, 0x12])).pc = 0x204#12 ∧ (tickOn 0x3312 (regs [0, 0, 0, 0x13])).pc = 0x202#12 := by decide
theorem test_seVxKk_C11 : (tickOn 0x3000 { State.reset with pc := 0xFFC#12 }).pc = 0x000#12 := by decide
theorem test_sneVxKk_C12_C13 :
    (tickOn 0x4312 (regs [0, 0, 0, 0x13])).pc = 0x204#12 ∧ (tickOn 0x4312 (regs [0, 0, 0, 0x12])).pc = 0x202#12 := by decide
theorem test_seVxVy_C14_C15 :
    (tickOn 0x5120 (regs [0, 0x40, 0x40])).pc = 0x204#12 ∧ (tickOn 0x5110 (regs [0, 7])).pc = 0x204#12 := by decide
theorem test_sneVxVy_C16_C17 :
    (tickOn 0x9120 (regs [0, 0x40, 0x41])).pc = 0x204#12 ∧ (tickOn 0x9110 (regs [0, 7])).pc = 0x202#12 := by decide
theorem test_jpV0Nnn_C19 : (tickOn 0xBFFF (regs [0x02])).pc = 0x001#12 := by decide
theorem test_jpV0Nnn_C20 : (tickOn 0xB300 (regs [0, 0, 0, 0x50])).pc = 0x300#12 := by decide
theorem test_ldVxKk_A1 : (tickOn 0x6A3F State.reset).getV 0xA#4 = 0x3F#8 := by decide
theorem test_ldVxVy_A3 : (tickOn 0x8010 (regs [0, 0x07])).getV 0#4 = 0x07#8 := by decide
theorem test_orVxVy_A4 :
    let t := tickOn 0x8011 ((regs [0x0F, 0xF0]).setV 0xF#4 0x55#8)
    t.getV 0#4 = 0xFF#8 ∧ t.getV 0xF#4 = 0x55#8 := by decide
theorem test_andVxVy_A5 : (tickOn 0x8012 (regs [0x3C, 0x0F])).getV 0#4 = 0x0C#8 := by decide
theorem test_xorVxVy_A6 : (tickOn 0x8003 (regs [0xAB])).getV 0#4 = 0x00#8 := by decide
theorem test_addVxKk_A7 :
    let t := tickOn 0x7001 ((regs [0xFF]).setV 0xF#4 0x07#8)
    t.getV 0#4 = 0x00#8 ∧ t.getV 0xF#4 = 0x07#8 := by decide
theorem test_addVxVy_A9_A10 :
    (tickOn 0x8014 (regs [0xFE, 0x01])).getV 0xF#4 = 0#8 ∧ (tickOn 0x8014 (regs [0xFF, 0x01])).getV 0xF#4 = 1#8 := by decide
theorem test_addVxVy_A12 :
    (tickOn 0x8FE4 ((State.reset.setV 0xF#4 0x80#8).setV 0xE#4 0x90#8)).getV 0xF#4 = 1#8 := by decide
theorem test_subVxVy_A14 :
    let t := tickOn 0x8015 (regs [0x05, 0x03])
    t.getV 0#4 = 0x02#8 ∧ t.getV 0xF#4 = 1#8 := by decide
theorem test_subVxVy_A15 : (tickOn 0x8015 ((regs [0x05, 0x05]).setV 0xF#4 9#8)).getV 0xF#4 = 0#8 := by decide
theorem test_subnVxVy_A17 :
    let t := tickOn 0x8017 (regs [0x05, 0x03])
    t.getV 0#4 = 0xFE#8 ∧ t.getV 0xF#4 = 0#8 := by decide
theorem test_subnVxVy_A18 :
    let t := tickOn 0x8017 (regs [0x03, 0x05])
    t.getV 0#4 = 0x02#8 ∧ t.getV 0xF#4 = 1#8 := by decide
theorem test_shrVx_A20 :
    let t := tickOn 0x8076 (regs [0xFF])
    t.getV 0#4 = 0x7F#8 ∧ t.getV 0xF#4 = 1#8 ∧ t.getV 7#4 = 0#8 := by decide
theorem test_shrVx_A22 : (tickOn 0x8F06 (State.reset.setV 0xF#4 0x03#8)).getV 0xF#4 = 1#8 := by decide
theorem test_shlVx_A23_A24 :
    (tickOn 0x800E (regs [0x7F])).getV 0#4 = 0xFE#8 ∧ (tickOn 0x800E (regs [0x80])).getV 0xF#4 = 1#8 := by decide
theorem test_addIVx_A27 :
    let t := tickOn 0xF01E { regs [0x02] with i := 0xFFF#12 }
    t.i = 0x001#12 ∧ t.getV 0xF#4 = 0#8 := by decide
theorem test_rndVxKk_A28 : (tickOn 0xC30F State.reset { keys := 0#16, rnd := 0xA7#8 }).getV 3#4 = 0x07#8 := by decide
theorem test_ldINnn_M2 : (tickOn 0xAFFF State.reset).i = 0xFFF#12 := by decide
theorem test_ldFVx_M5_M6 : (tickOn 0xF029 (regs [0x10])).i = 0x050#12 ∧ (tickOn 0xF029 (regs [0xFF])).i = 0x4FB#12 := by decide
theorem test_ldBVx_E7 :
    let t := tickOn 0xF033 { regs [0x9C] with i := 0x300#12 }
    t.memRead 0x300#12 = 1#8 ∧ t.memRead 0x301#12 = 5#8 ∧ t.memRead 0x302#12 = 6#8 ∧ t.i = 0x300#12 := by decide
theorem test_ldBVx_M9 :
    let t := tickOn 0xF033 { regs [0xFF] with i := 0xFFE#12 }
    t.memRead 0xFFE#12 = 2#8 ∧ t.memRead 0xFFF#12 = 5#8 ∧ t.memRead 0x000#12 = 5#8 := by decide
theorem test_ldMemVx_E8 :
    let t := tickOn 0xF355 { regs [0x00, 0x11, 0x22, 0x33, 0x44] with i := 0x400#12 }
    t.memRead 0x401#12 = 0x11#8 ∧ t.memRead 0x403#12 = 0x33#8 ∧ t.memRead 0x404#12 = 0x00#8 ∧ t.i = 0x400#12 := by decide
theorem test_ldVxMem_M12 :
    let t := tickOn 0xF265 { withMem State.reset 0x300#12 [0x10, 0x11, 0x12, 0x13] with i := 0x300#12 }
    t.getV 0#4 = 0x10#8 ∧ t.getV 2#4 = 0x12#8 ∧ t.getV 3#4 = 0x00#8 ∧ t.i = 0x300#12 := by decide
theorem test_drw_M14 :
    let s := { withMem State.reset 0x300#12 [0x81] with i := 0x300#12, fb := 0x88#2048 }
    let t := tickOn 0xD011 s
    t.fb = 0x09#2048 ∧ t.getV 0xF#4 = 1#8 ∧ t.dirty = true := by decide +kernel
theorem test_drw_E10 :
    let t := tickOn 0xD012 { withMem (regs [0x3F, 0x1F]) 0x300#12 [0xFF, 0xFF] with i := 0x300#12 }
    pixel t.fb 63 31 = true ∧ pixel t.fb 6 31 = true ∧ pixel t.fb 7 31 = false ∧ pixel t.fb 0 0 = true ∧
      pixel t.fb 63 0 = true ∧ pixel t.fb 63 1 = false ∧ t.getV 0xF#4 = 0#8 := by decide +kernel
theorem test_skpVx_E9 :
    let t := tickOn 0xE09E (regs [0x10])
    t.halted = true ∧ t.faultCode = 3#2 ∧ t.faultPc = 0x200#12 ∧ t.pc = 0x202#12 := by decide
theorem test_skpVx_K17 : (tickOn 0xE39E (regs [0, 0, 0, 3]) { keys := 0x0008#16, rnd := 0#8 }).pc = 0x204#12 := by decide
theorem test_sknpVx_E9 : (tickOn 0xE0A1 (regs [0x0F])).pc = 0x204#12 := by decide
theorem test_sknpVx_K12 : (tickOn 0xE0A1 (regs [0x10])).faultCode = 3#2 := by decide
theorem test_ldVxDt_K1 :
    let t := tickOn 0xF307 { State.reset with dt := 0x11#8 }
    t.dt = 0x10#8 ∧ t.getV 3#4 = 0x10#8 := by decide
theorem test_ldDtVx : (tickOn 0xF015 { regs [0x07] with dt := 0x33#8 }).dt = 0x07#8 := by decide
theorem test_ldStVx :
    let t := tickOn 0xF018 (regs [0x05])
    t.st = 0x05#8 ∧ t.tone = false := by decide
theorem test_ldVxK_K13 : (tickOn 0xF00A State.reset).pc = 0x200#12 := by decide
theorem test_ldVxK_K14 :
    let t := tickOn 0xF30A State.reset { keys := 0x0210#16, rnd := 0#8 }
    t.getV 3#4 = 4#8 ∧ t.pc = 0x202#12 := by decide
theorem test_nop_T5 :
    let t := tickOn 0x8018 (regs [0x01, 0x02])
    t.getV 0#4 = 0x01#8 ∧ t.pc = 0x202#12 := by decide

/-! ### The tick, memory and the ports -/

theorem test_fetch_wraps_T1 :
    let t := nextOf State.reset (tickWith quiet { withMem State.reset 0xFFF#12 [0x60, 0x55] with pc := 0xFFF#12 })
    t.getV 0#4 = 0x55#8 ∧ t.pc = 0x001#12 := by decide
theorem test_render_T9 :
    let t := tickOn 0x0000 { State.reset with dirty := true, fb := 5#2048 }
    t.render = some 5#2048 ∧ t.renderValid = true ∧ t.dirty = false := by decide +kernel
theorem test_reset_font_Z1 :
    State.reset.memRead 0x000#12 = 0xF0#8 ∧ State.reset.memRead 0x04F#12 = 0x80#8 ∧ State.reset.memRead 0x050#12 = 0#8 := by decide
theorem test_load_port_Z2 :
    State.reset.loadPort true 0x100#12 0xAA#8 = State.reset ∧
      (State.reset.loadPort true 0x200#12 0xAA#8).memRead 0x200#12 = 0xAA#8 := by decide +kernel
theorem test_reset_Z4 :
    (tickOn 0x2300 { State.reset with sp := 16 }).assertRst = State.reset := by decide +kernel
theorem test_quit_stops_the_tone :
    let t := { State.reset with tone := true, st := 9#8 }.quitPoll ⟨0x8000#16, 0#8⟩
    t.tone = false ∧ t.st = 9#8 ∧ t.pc = 0x200#12 ∧ t.key = 0x8000#16 := by decide
theorem test_quit_in_the_first_tick_closes_the_boot_phase :
    let t := State.reset.quitPoll quiet
    t.booting = false ∧ (t.loadPort true 0x200#12 0xAA#8).memRead 0x200#12 = 0#8 := by decide
theorem test_write_of_the_unlisted_byte_lists_nothing :
    ((State.reset.memWrite 0x000#12 0x11#8).memWrite 0x000#12 0xF0#8).mem = [] := by decide
theorem test_step_takes_the_queued_input :
    (nextOf State.reset (step ({ State.reset with inputs := [⟨0x0008#16, 0xA7#8⟩] }.withFetchWord 16 0xC3FF))).getV 3#4 = 0xA7#8 := by
  decide

/-! ### Witnesses: for each statement with hypotheses, a state and operands that meet them, at the boundary values of its clauses -/

/-- Reset with the word `w` at PC. -/
def at200 (w : Nat) (s : State := State.reset) : State := s.withFetchWord 16 w

/-- A block that has halted on a CALL with a full stack. -/
def overflowed : State := tickOn 0x2300 { State.reset with sp := 16 }

/-- A tick's next state, with no key pressed. -/
def quietTick (s : State) : State := nextOf s (tickWith quiet s)

theorem witness_DecodeOfEncodeIsIdentity :
    (Instr.drw 0xF#4 0x0#4 0xF#4).wf = true ∧ (Instr.nop 0xF0FF#16).wf = true := by decide
theorem witness_OpcodeMapRowsAreDisjoint :
    ∃ r ∈ opcodeMap, r.covers 0x8AB4#16 = true ∧ r.mnemonic = (Instr.addVxVy 0xA#4 0xB#4).mnemonic := by decide
theorem witness_DecoderFollowsOpcodeMap :
    (∃ r ∈ opcodeMap, r.covers 0xFF65#16 = true) ∧ (∀ r ∈ opcodeMap, r.covers 0x8018#16 = false) := by decide
theorem witness_TickRunsTheStepsInOrder :
    State.reset.halted = false ∧ overflowed.halted = true := by decide
theorem witness_StepRunsTheDecodedInstruction :
    let s := at200 0xDAB5
    s.halted = false ∧ decode [s.memRead s.pc, s.memRead (s.pc + 1#12)] = .ok (.drw 0xA#4 0xB#4 5#4, []) ∧
      (Instr.drw 0xA#4 0xB#4 5#4).wf = true := by decide
theorem witness_StepTakesOneInput :
    (let s : State := { State.reset with inputs := [⟨0x0008#16, 0xA7#8⟩] }
     s.halted = false ∧ s.inputs = ⟨0x0008#16, 0xA7#8⟩ :: []) ∧
    (State.reset.halted = false ∧ State.reset.inputs = []) ∧ overflowed.halted = true := by decide
theorem witness_TimersCountDownEveryTick :
    State.reset.halted = false ∧ (at200 0xF00A).instrAt 0x200#12 = .ldVxK 0#4 ∧
    (at200 0xF315).instrAt 0x200#12 = .ldDtVx 3#4 ∧ (at200 0xF318).instrAt 0x200#12 = .ldStVx 3#4 ∧
    (at200 0xF307).instrAt 0x200#12 = .ldVxDt 3#4 := by decide
theorem witness_ToneFollowsTheSoundTimer :
    (quietTick { State.reset with st := 2#8 }).tone = true ∧ (quietTick { State.reset with st := 1#8 }).tone = false ∧
    (tickOn 0x00EE { State.reset with st := 9#8 }).tone = false ∧ overflowed.halted = true := by decide
theorem witness_DirtyFlagHasTwoWriters :
    State.reset.halted = false ∧ drawsScreen ((at200 0x00E0).instrAt 0x200#12) = true ∧
    drawsScreen ((at200 0x0000).instrAt 0x200#12) = false := by decide
theorem witness_FramebufferChangeIsRenderedNextTick :
    let s := at200 0xD010
    let t := quietTick s
    s.halted = false ∧ tickWith quiet s = .next t ∧ t.halted = false ∧ drawsScreen (s.instrAt s.pc) = true :=
  ⟨by decide, rfl, by decide, by decide⟩
theorem witness_KeypadSnapshotIsReplacedWholesale (x : Reg) :
    Instr.cls ≠ .skpVx x ∧ Instr.cls ≠ .sknpVx x ∧ Instr.cls ≠ .ldVxK x := by simp
theorem witness_FaultEntryOfEachCondition :
    ({ State.reset with sp := 16 } : State).sp.val = 16 ∧ State.reset.sp.val = 0 ∧
    15 < ((regs [0x10]).getV 0#4).toNat := by decide
theorem witness_OnlyTheThreeConditionsHalt :
    (tickOn 0x2300 { State.reset with sp := 16 }).halted = true ∧ (tickOn 0x2300 { State.reset with sp := 15 }).halted = false ∧
    (tickOn 0x00EE State.reset).halted = true ∧ (tickOn 0x00EE { State.reset with sp := 1 }).halted = false ∧
    (tickOn 0xE09E (regs [0x10])).halted = true ∧ (tickOn 0xE0A1 (regs [0x0F])).halted = false := by decide
theorem witness_FaultEntryIsPrecise :
    let s := at200 0x2300 { State.reset with sp := 16, dt := 3#8, dirty := true }
    s.halted = false ∧ tickWith quiet s = .next (quietTick s) ∧ (quietTick s).halted = true ∧ (quietTick s).dt = 2#8 :=
  ⟨by decide, rfl, by decide, by decide⟩
theorem witness_OnlyResetLeavesTheHaltedState :
    overflowed.halted = true ∧ overflowed.booting = false ∧
    ∀ e ∈ [Event.tick quiet, Event.load true 0x200#12 0xAA#8], e ≠ .rst := by decide
theorem witness_CallPushesAndJumps :
    ({ State.reset with sp := 15 } : State).sp.val < 16 ∧ (tickOn 0x2FFF { State.reset with sp := 15 }).sp.val = 16 := by decide
theorem witness_RetPopsAndReturns :
    0 < ({ State.reset with sp := 1 } : State).sp.val ∧ 0 < ({ State.reset with sp := 16 } : State).sp.val := by decide
theorem witness_CallThenReturnResumes :
    let s : State := { State.reset with sp := 15 }
    let t := nextOf s (exec (.call 0x300#12) s)
    let u := t.setV 0#4 0x77#8
    s.sp.val < 16 ∧ u.sp = t.sp ∧ u.stack = t.stack ∧ u ≠ t := by decide +kernel
theorem witness_SkipsAddTwoWhenTheyHold : 1#4 ≠ 0#4 ∧ 0xF#4 ≠ 0#4 := by decide
theorem witness_AddAndSubtractSetTheFlagLast : 0xE#4 ≠ 0xF#4 ∧ ¬ (0xE#4 = 0#4 ∨ 0xE#4 = 0xF#4) := by decide
theorem witness_ShiftsUseOnlyTheTargetRegister : 0#4 ≠ 0xF#4 := by decide
theorem witness_RndMasksTheDrawnByte :
    (at200 0xC30F).halted = false ∧ (at200 0xC30F).instrAt 0x200#12 = .rndVxKk 3#4 0x0F#8 ∧
    ∀ x kk, Instr.cls ≠ .rndVxKk x kk := by
  exact ⟨by decide, by decide, by simp⟩
theorem witness_BlockStoreWritesV0ToVx : (0xF#4).toNat ≤ (0xF#4).toNat ∧ (0#4).toNat ≤ (0#4).toNat := by decide
theorem witness_BlockLoadReadsV0ToVx : (0xF#4).toNat ≤ (0xF#4).toNat ∧ (0#4).toNat ≤ (0#4).toNat := by decide
theorem witness_StoreIsSeenByTheNextFetch :
    let s := at200 0xF155 { regs [0x12, 0x34] with i := 0x202#12 }
    s.halted = false ∧ s.instrAt s.pc = .ldMemVx 1#4 ∧ 1 ≤ (1#4).toNat ∧ s.i = s.pc + 2#12 ∧
      (quietTick (quietTick s)).pc = 0x234#12 := by decide
theorem witness_DrawXorsTheSpriteAndReportsCollision :
    let s : State := { withMem (regs [0x3F, 0x1F]) 0x300#12 [0xFF, 0xFF] with i := 0x300#12 }
    (1 < (2#4).toNat ∧ 7 < 8 ∧ (63 + 7) % 64 = 6 ∧ (31 + 1) % 32 = 0 ∧ (s.memRead (s.indexed 1)).getLsbD 0 = true) ∧
    (∀ r, r < 2 → ∀ j, j < 8 → ¬ (7 = ((s.getV 0#4).toNat + j) % 64 ∧ 31 = ((s.getV 1#4).toNat + r) % 32)) := by decide
theorem witness_DrawTwiceRestoresTheScreen : 0xA#4 ≠ 0xF#4 ∧ 0xB#4 ≠ 0xF#4 := by decide
theorem witness_CanonicalMemoriesAreExtensional :
    Memory.wf [(0x200, 0x12#8), (0xFFF, 0x34#8)] ∧ ¬ Memory.wf [(0x200, 0x00#8)] ∧ ¬ Memory.wf [(0x1000, 0x12#8)] := by decide
theorem witness_DelayTimerCopies :
    (at200 0xF307).instrAt 0x200#12 = .ldVxDt 3#4 ∧ (at200 0xF315).instrAt 0x200#12 = .ldDtVx 3#4 ∧
    (at200 0xF307).halted = false := by decide
theorem witness_SoundTimerCopyLeavesTheTone :
    (at200 0xF318).halted = false ∧ (at200 0xF318).instrAt 0x200#12 = .ldStVx 3#4 := by decide
theorem witness_KeySkipsReadTheSnapshot : ((regs [0x0F]).getV 0#4).toNat ≤ 15 ∧ ((regs [0x00]).getV 0#4).toNat ≤ 15 := by decide
theorem witness_WaitForKeyStoresTheLeastKey :
    ({ State.reset with key := 0x8000#16 } : State).key ≠ 0#16 ∧ State.reset.key = 0#16 := by decide
theorem witness_WaitForKeyEndsWithAKey :
    let s := at200 0xF30A { State.reset with dt := 1#8 }
    s.halted = false ∧ s.instrAt s.pc = .ldVxK 3#4 ∧ (∀ inp ∈ [quiet, quiet], inp.keys = 0#16) ∧
      (⟨0x8000#16, 0#8⟩ : TickInput).keys ≠ 0#16 := by decide
theorem witness_DelayTimerCountsTheTicks :
    let s := at200 0x1200 { State.reset with dt := 1#8 }
    let t := quietTick (quietTick s)
    runEvents ([quiet, quiet].map Event.tick) s = .next t ∧ t.halted = false ∧
      ∀ k u, k < [quiet, quiet].length → runEvents (([quiet, quiet].take k).map Event.tick) s = .next u →
        ∀ x, u.instrAt u.pc ≠ .ldDtVx x := by
  refine ⟨rfl, by decide, fun k u hk hu x => ?_⟩
  have hjp : u.instrAt u.pc = .jp 0x200#12 := by
    match k, hk with
    | 0, _ => obtain rfl := Host.Outcome.next.inj hu; decide
    | 1, _ => obtain rfl := Host.Outcome.next.inj hu; decide
  rw [hjp]
  exact fun h => Instr.noConfusion h
theorem witness_SoundTimerDrivesTheTone :
    let s := at200 0x1200 { State.reset with st := 2#8 }
    let t := quietTick s
    [quiet] ≠ [] ∧ runEvents ([quiet].map Event.tick) s = .next t ∧ t.halted = false ∧ t.tone = true ∧
      ∀ k u, k < [quiet].length → runEvents (([quiet].take k).map Event.tick) s = .next u →
        ∀ x, u.instrAt u.pc ≠ .ldStVx x := by
  refine ⟨by decide, rfl, by decide, by decide, fun k u hk hu x => ?_⟩
  have hjp : u.instrAt u.pc = .jp 0x200#12 := by
    match k, hk with
    | 0, _ => obtain rfl := Host.Outcome.next.inj hu; decide
  rw [hjp]
  exact fun h => Instr.noConfusion h
theorem witness_ClsUnsetsEveryPixel :
    (at200 0x00E0).halted = false ∧ (at200 0x00E0).instrAt 0x200#12 = .cls := by decide
theorem witness_NopTagChangesNothing :
    (at200 0x8018).halted = false ∧ (at200 0x8018).instrAt 0x200#12 = .nop 0x8018#16 := by decide
theorem witness_EachPieceOfStateHasItsWriters_registers_and_pc :
    ¬ writesReg (.ldVxMem 0xE#4) 0xF#4 ∧ ¬ writesReg (.addVxVy 0#4 1#4) 1#4 ∧ ¬ writesReg (.addVxKk 0#4 1#8) 0xF#4 ∧
      writesPc (.ldVxMem 0xF#4) = false := by decide
theorem witness_EachPieceOfStateHasItsWriters : drawsScreen (.jp 0#12) = false ∧ ∀ nnn x,
    Instr.jp 0#12 ≠ .ldINnn nnn ∧ Instr.jp 0#12 ≠ .addIVx x ∧ Instr.jp 0#12 ≠ .ldFVx x ∧ Instr.jp 0#12 ≠ .call nnn ∧
    Instr.jp 0#12 ≠ .ret ∧ Instr.jp 0#12 ≠ .ldDtVx x ∧ Instr.jp 0#12 ≠ .ldStVx x ∧ Instr.jp 0#12 ≠ .ldBVx x ∧
    Instr.jp 0#12 ≠ .ldMemVx x ∧ Instr.jp 0#12 ≠ .skpVx x ∧ Instr.jp 0#12 ≠ .sknpVx x := by
  exact ⟨by decide, by simp⟩
theorem witness_VfChangesOnlyAsFlagOrDestination :
    (tickOn 0x8014 (regs [0xFF, 0x01])).getV 0xF#4 ≠ (regs [0xFF, 0x01]).getV 0xF#4 ∧
    (tickOn 0x6F01 State.reset).getV 0xF#4 ≠ State.reset.getV 0xF#4 := by decide
theorem witness_OnlyDrawReadsTheFramebuffer :
    drawsScreen .ret = false ∧ drawsScreen ((at200 0x1200).instrAt 0x200#12) = false ∧ (∀ x y n, Instr.cls ≠ .drw x y n) ∧
    0#4 ≠ 0xF#4 := by
  exact ⟨by decide, by decide, by simp, by decide⟩
theorem witness_FreeStackEntriesAreUnobservable :
    let s : State := { State.reset with sp := 1 }
    let s' : State := { s with stack := s.stack.set 1 0xABC#12 }
    SameButFreeStack s s' ∧ s.stack ≠ s'.stack ∧ s.sp.val < 15 := by
  refine ⟨⟨rfl, fun k _ h => ?_⟩, by decide, by decide⟩
  have h0 : k = 0 := Nat.lt_one_iff.1 h
  subst h0
  rfl
theorem witness_ResetValuesOfEveryRegister : 0x50 ≤ (0x050#12).toNat ∧ 0x50 ≤ (0xFFF#12).toNat := by decide
theorem witness_RomImageLandsAt0x200 :
    (0x200 ≤ (0xFFF#12).toNat ∧ (0xFFF#12).toNat - 0x200 < (List.replicate 3585 0xAA#8).length) ∧
    (0x200 ≤ (0x201#12).toNat ∧ [0xAA#8].length ≤ (0x201#12).toNat - 0x200) ∧ (0x1FF#12).toNat < 0x200 :=
  ⟨⟨by decide, List.length_replicate ▸ by decide⟩, by decide, by decide⟩
theorem witness_LoadPortWritesOnlyAtBoot :
    State.reset.booting = true ∧ 0x200 ≤ (0x200#12).toNat ∧ (0x1FF#12).toNat < 0x200 ∧ (quietTick State.reset).booting = false ∧
    State.reset.halted = false := by decide
theorem witness_EveryStepKeepsTheInvariant : overflowed.Inv where
  canonical := by decide
  running := by decide
  faulted := fun _ => ⟨.stackOverflow, by decide, by decide, 0x300#12, by decide⟩
  stopped := by decide
  boot := by decide
theorem witness_EveryRunOfEventsKeepsTheInvariant : (State.reset.loadPort true 0x200#12 0xAA#8).Inv where
  canonical := by decide
  running := by decide
  faulted := fun h => absurd h (by decide)
  stopped := by decide
  boot := fun _ => ⟨by decide +kernel, fun a ha => by
    have hne : a ≠ 0x200#12 := by
      rintro rfl
      exact absurd ha (by decide)
    rw [State.loadPort_eq, if_pos (by decide), State.memRead_memWrite, if_neg hne]
    rfl⟩

end Sys2Proof.Tests
end

section
/-! The housekeeping fields of the state (DIRTY, KEY, the outputs and inputs of a tick), and how an instruction and a tick pass them on:
O12 and O14. -/
namespace Sys2Proof.Machine

/-! ### The instructions that branch, one equation for each branch -/

theorem exec_call_of_room {s : State} (nnn : Addr) (h : s.sp.val < 16) :
    exec (.call nnn) s = .next ((s.push h).jump nnn) := by simp [exec, execCall, h]

theorem exec_call_of_full {s : State} (nnn : Addr) (h : ¬ s.sp.val < 16) :
    exec (.call nnn) s = .next (s.raise .stackOverflow) := by simp [exec, execCall, h]

theorem exec_ret_of_entry {s : State} (h : 0 < s.sp.val) : exec .ret s = .next (s.pop h) := by
  simp [exec, execRet, h]

theorem exec_ret_of_empty {s : State} (h : ¬ 0 < s.sp.val) : exec .ret s = .next (s.raise .stackUnderflow) := by
  simp [exec, execRet, h]

theorem exec_skpVx_of_index {s : State} {x : Reg} (h : (s.getV x).toNat < 16) :
    exec (.skpVx x) s = .next (s.skipIf (s.keyDown (s.getV x).toNat)) := by
  simp [exec, execSkpVx, keyIndex_ok h]

theorem exec_skpVx_of_invalid {s : State} {x : Reg} (h : 15 < (s.getV x).toNat) :
    exec (.skpVx x) s = .next (s.raise .invalidKeyIndex) := by
  simp [exec, execSkpVx, keyIndex_error h]

theorem exec_sknpVx_of_index {s : State} {x : Reg} (h : (s.getV x).toNat < 16) :
    exec (.sknpVx x) s = .next (s.skipIf (!s.keyDown (s.getV x).toNat)) := by
  simp [exec, execSknpVx, keyIndex_ok h]

theorem exec_sknpVx_of_invalid {s : State} {x : Reg} (h : 15 < (s.getV x).toNat) :
    exec (.sknpVx x) s = .next (s.raise .invalidKeyIndex) := by
  simp [exec, execSknpVx, keyIndex_error h]

theorem exec_ldVxK_of_key {s : State} {x : Reg} {k : Byte} (h : leastKey s.key = some k) :
    exec (.ldVxK x) s = .next (s.setV x k) := by simp [exec, execLdVxK, h]

theorem exec_ldVxK_of_no_key {s : State} {x : Reg} (h : leastKey s.key = none) :
    exec (.ldVxK x) s = .next (s.jump s.instrAddr) := by simp [exec, execLdVxK, h]

/-- No instruction faults or is refused (R16). -/
theorem exec_total (i : Instr) (s : State) : ∃ t, exec i s = .next t := by
  cases i <;> exact ⟨_, rfl⟩

/-! ### What the block transfers and a sprite read -/

/-- A block store's memory is a function of V, I and memory. -/
theorem State.storeRegs_mem_congr (n : Nat) {s s' : State} (hv : s'.v = s.v) (hi : s'.i = s.i) (hm : s'.mem = s.mem) :
    (State.storeRegs n s').mem = (State.storeRegs n s).mem := by
  induction n with
  | zero => exact hm
  | succ k ih =>
    simp only [State.storeRegs_succ, State.memWrite_mem, State.indexed_storeRegs, State.getV_storeRegs, ih]
    simp only [State.indexed, State.getV, hv, hi]

/-- A block load's registers are a function of V, I and memory. -/
theorem State.loadRegs_v_congr (n : Nat) {s s' : State} (hv : s'.v = s.v) (hi : s'.i = s.i) (hm : s'.mem = s.mem) :
    (State.loadRegs n s').v = (State.loadRegs n s).v := by
  induction n with
  | zero => exact hv
  | succ k ih =>
    simp only [State.loadRegs_succ, State.setV_v, State.indexed_loadRegs, State.memRead_loadRegs, ih]
    simp only [State.indexed, State.memRead, hm, hi]

/-- What a sprite draws is a function of I and memory. -/
theorem State.drawRows_congr (x0 y0 : Byte) (n : Nat) (c : Canvas) {s s' : State} (hi : s'.i = s.i) (hm : s'.mem = s.mem) :
    s'.drawRows x0 y0 n c = s.drawRows x0 y0 n c := by
  induction n with
  | zero => rfl
  | succ r ih => simp only [State.drawRows, ih, State.indexed, State.memRead, hi, hm]

/-! ### The housekeeping fields -/

/-- The fields that steps 1 and 2 of a tick and the environment write (R29 to R34, R75). -/
structure Housekeeping where
  dirty : Bool
  key : Keypad
  rnd : Byte
  render : Option Framebuffer
  booting : Bool
  inputs : List TickInput
  polls : Nat

/-- The housekeeping fields of a state. -/
def State.housekeeping (s : State) : Housekeeping := ⟨s.dirty, s.key, s.rnd, s.render, s.booting, s.inputs, s.polls⟩

/-- The state with other housekeeping fields. -/
def State.withHousekeeping (s : State) (k : Housekeeping) : State :=
  { s with dirty := k.dirty, key := k.key, rnd := k.rnd, render := k.render, booting := k.booting, inputs := k.inputs,
           polls := k.polls }

/-- The housekeeping fields after an instruction: CLS and DRW set DIRTY, and that is all (R29). -/
def Housekeeping.after (k : Housekeeping) (i : Instr) : Housekeeping := { k with dirty := drawsScreen i || k.dirty }

theorem State.skipIf_withHousekeeping (s : State) (k : Housekeeping) (c : Bool) :
    (s.withHousekeeping k).skipIf c = (s.skipIf c).withHousekeeping k := by cases c <;> rfl

theorem State.storeRegs_withHousekeeping (n : Nat) (s : State) (k : Housekeeping) :
    State.storeRegs n (s.withHousekeeping k) = (State.storeRegs n s).withHousekeeping k := by
  rw [State.storeRegs_eq n (s.withHousekeeping k), State.storeRegs_eq n s,
    State.storeRegs_mem_congr n (s' := s.withHousekeeping k) (s := s) rfl rfl rfl]
  rfl

theorem State.loadRegs_withHousekeeping (n : Nat) (s : State) (k : Housekeeping) :
    State.loadRegs n (s.withHousekeeping k) = (State.loadRegs n s).withHousekeeping k := by
  rw [State.loadRegs_eq n (s.withHousekeeping k), State.loadRegs_eq n s,
    State.loadRegs_v_congr n (s' := s.withHousekeeping k) (s := s) rfl rfl rfl]
  rfl

/-- An instruction passes the housekeeping fields through and does not depend on them, but for KEY in SKP, SKNP and LD Vx, K and the
random byte in RND. -/
theorem exec_withHousekeeping (i : Instr) (s : State) (k : Housekeeping)
    (hkey : (∃ x, i = .skpVx x ∨ i = .sknpVx x ∨ i = .ldVxK x) → k.key = s.key)
    (hrnd : (∃ x kk, i = .rndVxKk x kk) → k.rnd = s.rnd) :
    exec i (s.withHousekeeping k) = onNext (·.withHousekeeping (k.after i)) (exec i s) := by
  cases i with
  | call nnn =>
    by_cases h : s.sp.val < 16
    · rw [exec_call_of_room nnn h, exec_call_of_room (s := s.withHousekeeping k) nnn h]; rfl
    · rw [exec_call_of_full nnn h, exec_call_of_full (s := s.withHousekeeping k) nnn h]; rfl
  | ret =>
    by_cases h : 0 < s.sp.val
    · rw [exec_ret_of_entry h, exec_ret_of_entry (s := s.withHousekeeping k) h]; rfl
    · rw [exec_ret_of_empty h, exec_ret_of_empty (s := s.withHousekeeping k) h]; rfl
  | seVxKk x kk | sneVxKk x kk | seVxVy x y | sneVxVy x y =>
    exact congrArg _ (s.skipIf_withHousekeeping k _)
  | skpVx x =>
    have hk : (s.withHousekeeping k).key = s.key := hkey ⟨x, .inl rfl⟩
    rcases Nat.lt_or_ge (s.getV x).toNat 16 with h | h
    · rw [exec_skpVx_of_index h, exec_skpVx_of_index (s := s.withHousekeeping k) h, State.keyDown, hk]
      exact congrArg _ (s.skipIf_withHousekeeping k _)
    · rw [exec_skpVx_of_invalid h, exec_skpVx_of_invalid (s := s.withHousekeeping k) h]; rfl
  | sknpVx x =>
    have hk : (s.withHousekeeping k).key = s.key := hkey ⟨x, .inr (.inl rfl)⟩
    rcases Nat.lt_or_ge (s.getV x).toNat 16 with h | h
    · rw [exec_sknpVx_of_index h, exec_sknpVx_of_index (s := s.withHousekeeping k) h, State.keyDown, hk]
      exact congrArg _ (s.skipIf_withHousekeeping k _)
    · rw [exec_sknpVx_of_invalid h, exec_sknpVx_of_invalid (s := s.withHousekeeping k) h]; rfl
  | ldVxK x =>
    have hk : (s.withHousekeeping k).key = s.key := hkey ⟨x, .inr (.inr rfl)⟩
    cases h : leastKey s.key with
    | some b => rw [exec_ldVxK_of_key h, exec_ldVxK_of_key (hk ▸ h)]; rfl
    | none => rw [exec_ldVxK_of_no_key h, exec_ldVxK_of_no_key (hk ▸ h)]; rfl
  | rndVxKk x kk =>
    have hr : (s.withHousekeeping k).rnd = s.rnd := hrnd ⟨x, kk, rfl⟩
    simp only [exec, execRndVxKk, hr]; rfl
  | ldMemVx x => exact congrArg _ (State.storeRegs_withHousekeeping _ s k)
  | ldVxMem x => exact congrArg _ (State.loadRegs_withHousekeeping _ s k)
  | drw x y n =>
    simp only [exec, execDrw, State.drawRows_congr _ _ _ _ (s' := s.withHousekeeping k) (s := s) rfl rfl]; rfl
  | _ => rfl

/-- An instruction completes and changes no housekeeping field but DIRTY, which CLS and DRW set. -/
theorem exec_housekeeping (i : Instr) (s : State) :
    ∃ t, exec i s = .next t ∧ t.housekeeping = s.housekeeping.after i := by
  obtain ⟨t, ht⟩ := exec_total i s
  have h := exec_withHousekeeping i s s.housekeeping (fun _ => rfl) (fun _ => rfl)
  rw [show s.withHousekeeping s.housekeeping = s from rfl, ht] at h
  exact ⟨t, ht, congrArg State.housekeeping (Host.Outcome.next.inj h)⟩

/-- The housekeeping fields after a running tick: what its first two steps leave, passed through its instruction (R73 to R75). -/
theorem tickWith_housekeeping {s : State} (hs : s.halted = false) (inp : TickInput) :
    ∃ t, tickWith inp s = .next t ∧ t.housekeeping =
      Housekeeping.after ⟨false, inp.keys, inp.rnd, if s.dirty = true then some s.fb else none, false, s.inputs, s.polls⟩
        (s.instrAt s.pc) := by
  rw [tickWith_running hs]
  exact exec_housekeeping (s.instrAt s.pc) (s.beginTick inp).fetchAdvance

/-- No instruction reads DIRTY. -/
theorem exec_withDirty (i : Instr) (s : State) (d : Bool) :
    exec i { s with dirty := d } = onNext (fun t => { t with dirty := drawsScreen i || d }) (exec i s) := by
  obtain ⟨t, ht, hk⟩ := exec_housekeeping i s
  have h := exec_withHousekeeping i s { s.housekeeping with dirty := d } (fun _ => rfl) (fun _ => rfl)
  have hd : Housekeeping.after { s.housekeeping with dirty := d } i = { t.housekeeping with dirty := drawsScreen i || d } := by
    rw [hk]; rfl
  rw [ht, hd] at h
  rw [ht]
  exact h

/-- No instruction but SKP, SKNP and LD Vx, K reads KEY. -/
theorem exec_withKey {i : Instr} (hi : ∀ x, i ≠ .skpVx x ∧ i ≠ .sknpVx x ∧ i ≠ .ldVxK x) (s : State) (keys : Keypad) :
    exec i { s with key := keys } = onNext (fun t => { t with key := keys }) (exec i s) := by
  obtain ⟨t, ht, hk⟩ := exec_housekeeping i s
  have hread : ¬ ∃ x, i = .skpVx x ∨ i = .sknpVx x ∨ i = .ldVxK x := by
    rintro ⟨x, h⟩
    simp [hi x] at h
  have h := exec_withHousekeeping i s { s.housekeeping with key := keys } (absurd · hread) (fun _ => rfl)
  have hd : Housekeeping.after { s.housekeeping with key := keys } i = { t.housekeeping with key := keys } := by
    rw [hk]; rfl
  rw [ht, hd] at h
  rw [ht]
  exact h

/-- Settles O12: DIRTY is a housekeeping field that only drawing sets, that step 2 clears, and that no instruction reads. -/
theorem dirtyFlagHasTwoWriters : Obligations.DirtyFlagHasTwoWriters := by
  refine ⟨fun i s => ?_, fun inp s hs => ?_, exec_withDirty⟩
  · obtain ⟨t, ht, hk⟩ := exec_housekeeping i s
    exact ⟨t, ht, congrArg Housekeeping.dirty hk⟩
  · obtain ⟨t, ht, hk⟩ := tickWith_housekeeping hs inp
    exact ⟨t, ht, (congrArg Housekeeping.dirty hk).trans (Bool.or_false _), congrArg Housekeeping.render hk⟩

/-- Settles O14: KEY is a housekeeping field that step 1 replaces, that every instruction keeps, and that only the three key
instructions read. -/
theorem keypadSnapshotIsReplacedWholesale : Obligations.KeypadSnapshotIsReplacedWholesale := by
  refine ⟨fun inp s hs => ?_, fun i s => ?_, fun i s keys hi => exec_withKey hi s keys⟩
  · obtain ⟨t, ht, hk⟩ := tickWith_housekeeping hs inp
    have hkey : t.key = inp.keys := congrArg Housekeeping.key hk
    exact ⟨t, ht, fun k _ => by rw [hkey]⟩
  · obtain ⟨t, ht, hk⟩ := exec_housekeeping i s
    exact ⟨t, ht, congrArg Housekeeping.key hk⟩

end Sys2Proof.Machine
end

section
/-! The NOP tag (R82): the instruction that changes nothing, and its tick. O48. -/
namespace Sys2Proof.Machine

/-- The NOP tag leaves every piece of state as it was (R82). -/
@[simp] theorem exec_nop (w : Word) (s : State) : exec (.nop w) s = .next s := rfl

/-- Settles O48: the instruction's own effect is none, so a running tick on a NOP-tag word is its first four steps and the fetch
advance past the word. -/
theorem nopTagChangesNothing : Obligations.NopTagChangesNothing := by
  refine fun w s => ⟨exec_nop w s, fun inp hs hi => ?_⟩
  calc tickWith inp s
    _ = exec (.nop w) (s.beginTick inp).fetchAdvance := by rw [tickWith_running hs, hi]
    _ = .next (s.beginTick inp).fetchAdvance := exec_nop w _
    _ = .next { s.beginTick inp with pc := s.pc + 2#12 } := by rw [State.fetchAdvance, State.jump, State.beginTick_pc]

end Sys2Proof.Machine
end

section
/-! Jumps to an address in the word (R85, R92): the words of format NNN decode to them, and what they do is to set PC. O21 and O26. -/
namespace Sys2Proof.Machine

theorem decodeWord_encode_jp (nnn : Addr) : decodeWord (encode (.jp nnn)) = .jp nnn := by simp [encode, decodeWord]

theorem decodeWord_encode_jpV0Nnn (nnn : Addr) : decodeWord (encode (.jpV0Nnn nnn)) = .jpV0Nnn nnn := by
  simp [encode, decodeWord]

/-- A jump changes nothing but PC. -/
theorem State.onlyPc_jump (s : State) (a : Addr) : OnlyPc s (s.jump a) := ⟨rfl, s.getV_jump a, s.memRead_jump a⟩

/-- A register as an addend of an address is its unsigned value (R9). -/
@[simp] theorem State.toNat_regAddr (s : State) (r : Reg) : (s.regAddr r).toNat = (s.getV r).toNat :=
  BitVec.toNat_setWidth_of_le (by decide)

theorem exec_jp (nnn : Addr) (s : State) : exec (.jp nnn) s = .next (s.jump nnn) := rfl

theorem exec_jpV0Nnn (nnn : Addr) (s : State) : exec (.jpV0Nnn nnn) s = .next (s.jump (nnn + s.regAddr 0#4)) := rfl

/-- Settles O21: the word of format NNN is the encoding of JP, and JP is one jump to its operand. -/
theorem jpSetsPc : Obligations.JpSetsPc :=
  fun nnn s => ⟨decodeWord_encode_jp nnn, exec_jp nnn s⟩

/-- Settles O26: JP V0 is one jump, whose target is an address sum and so the sum of the unsigned values modulo 4096. -/
theorem jpV0AddsV0 : Obligations.JpV0AddsV0 := by
  refine fun nnn s => ⟨decodeWord_encode_jpV0Nnn nnn, _, exec_jpV0Nnn nnn s, ?_, s.onlyPc_jump _⟩
  calc (nnn + s.regAddr 0#4).toNat
    _ = (nnn.toNat + (s.regAddr 0#4).toNat) % 4096 := BitVec.toNat_add nnn _
    _ = (nnn.toNat + (s.getV 0#4).toNat) % 4096 := by rw [State.toNat_regAddr]

end Sys2Proof.Machine
end

section
/-! Loads, bitwise logic and ADD Vx, kk (R94 to R99): their words decode to them, and each is one write of V[x]. O27 and O28. -/
namespace Sys2Proof.Machine

theorem decodeWord_encode_ldVxKk (x : Reg) (kk : Byte) : decodeWord (encode (.ldVxKk x kk)) = .ldVxKk x kk := by
  simp [encode, decodeWord]

theorem decodeWord_encode_addVxKk (x : Reg) (kk : Byte) : decodeWord (encode (.addVxKk x kk)) = .addVxKk x kk := by
  simp [encode, decodeWord]

/-- In the group of first nibble 0x8 the operands are the x and y fields (R67). -/
theorem decodeWord_packXYN_8 (x y : Reg) (n : Nibble) :
    decodeWord (packXYN 0x8#4 x y n) = decodeGroup8 (packXYN 0x8#4 x y n) := by simp [decodeWord]

theorem decodeWord_encode_ldVxVy (x y : Reg) : decodeWord (encode (.ldVxVy x y)) = .ldVxVy x y := by
  simp [encode, decodeWord_packXYN_8, decodeGroup8]

theorem decodeWord_encode_orVxVy (x y : Reg) : decodeWord (encode (.orVxVy x y)) = .orVxVy x y := by
  simp [encode, decodeWord_packXYN_8, decodeGroup8]

theorem decodeWord_encode_andVxVy (x y : Reg) : decodeWord (encode (.andVxVy x y)) = .andVxVy x y := by
  simp [encode, decodeWord_packXYN_8, decodeGroup8]

theorem decodeWord_encode_xorVxVy (x y : Reg) : decodeWord (encode (.xorVxVy x y)) = .xorVxVy x y := by
  simp [encode, decodeWord_packXYN_8, decodeGroup8]

theorem exec_ldVxKk (x : Reg) (kk : Byte) (s : State) : exec (.ldVxKk x kk) s = .next (s.setV x kk) := rfl

theorem exec_ldVxVy (x y : Reg) (s : State) : exec (.ldVxVy x y) s = .next (s.setV x (s.getV y)) := rfl

theorem exec_orVxVy (x y : Reg) (s : State) : exec (.orVxVy x y) s = .next (s.setV x (s.getV x ||| s.getV y)) := rfl

theorem exec_andVxVy (x y : Reg) (s : State) : exec (.andVxVy x y) s = .next (s.setV x (s.getV x &&& s.getV y)) := rfl

theorem exec_xorVxVy (x y : Reg) (s : State) : exec (.xorVxVy x y) s = .next (s.setV x (s.getV x ^^^ s.getV y)) := rfl

theorem exec_addVxKk (x : Reg) (kk : Byte) (s : State) : exec (.addVxKk x kk) s = .next (s.setV x (s.getV x + kk)) := rfl

/-- A register write changes nothing but that register. -/
theorem State.onlyRegs_setV (s : State) (x : Reg) (b : Byte) : OnlyRegs (· = x) s (s.setV x b) :=
  ⟨rfl, fun r hr => by rw [State.getV_setV, if_neg hr], s.memRead_setV x b⟩

/-- An instruction that is one write of V[x] leaves the written byte there and changes nothing else. -/
theorem exec_writes_only_of_setV {i : Instr} {s : State} {x : Reg} {b : Byte} (h : exec i s = .next (s.setV x b)) :
    ∃ t, exec i s = .next t ∧ t.getV x = b ∧ OnlyRegs (· = x) s t :=
  ⟨_, h, (s.getV_setV x b x).trans (if_pos rfl), s.onlyRegs_setV x b⟩

/-- Settles O27: each of the five words is the encoding of its instruction, and each instruction is one write of V[x]. -/
theorem loadsAndLogicWriteTheirRegister : Obligations.LoadsAndLogicWriteTheirRegister :=
  fun x y kk s =>
    ⟨⟨decodeWord_encode_ldVxKk x kk, exec_writes_only_of_setV (exec_ldVxKk x kk s)⟩,
     ⟨decodeWord_encode_ldVxVy x y, exec_writes_only_of_setV (exec_ldVxVy x y s)⟩,
     ⟨decodeWord_encode_orVxVy x y, exec_writes_only_of_setV (exec_orVxVy x y s)⟩,
     ⟨decodeWord_encode_andVxVy x y, exec_writes_only_of_setV (exec_andVxVy x y s)⟩,
     ⟨decodeWord_encode_xorVxVy x y, exec_writes_only_of_setV (exec_xorVxVy x y s)⟩⟩

/-- Settles O28: ADD Vx, kk is one write of V[x], of a byte sum and so of the sum of the unsigned values modulo 256. -/
theorem addImmediateWrapsWithoutFlag : Obligations.AddImmediateWrapsWithoutFlag := by
  intro x kk s
  obtain ⟨t, ht, hx, hframe⟩ := exec_writes_only_of_setV (exec_addVxKk x kk s)
  refine ⟨decodeWord_encode_addVxKk x kk, t, ht, ?_, hframe⟩
  calc (t.getV x).toNat
    _ = (s.getV x + kk).toNat := by rw [hx]
    _ = ((s.getV x).toNat + kk.toNat) % 256 := BitVec.toNat_add _ _

end Sys2Proof.Machine
end

section
/-! Block transfers and the decimal digits (R110 to R112): their words decode to them, what they leave in memory and in V, and what they
leave unchanged. O33, O34 and O35. -/
namespace Sys2Proof.Machine

/-! ### Their words -/

/-- In the group of first nibble 0xF the low byte selects the operation (R68). -/
theorem decodeWord_packXKK_F (x : Reg) (kk : Byte) :
    decodeWord (packXKK 0xF#4 x kk) = decodeGroupF (packXKK 0xF#4 x kk) := by simp [decodeWord]

theorem decodeWord_encode_ldBVx (x : Reg) : decodeWord (encode (.ldBVx x)) = .ldBVx x := by
  simp [encode, decodeWord_packXKK_F, decodeGroupF]

theorem decodeWord_encode_ldMemVx (x : Reg) : decodeWord (encode (.ldMemVx x)) = .ldMemVx x := by
  simp [encode, decodeWord_packXKK_F, decodeGroupF]

theorem decodeWord_encode_ldVxMem (x : Reg) : decodeWord (encode (.ldVxMem x)) = .ldVxMem x := by
  simp [encode, decodeWord_packXKK_F, decodeGroupF]

/-! ### Their meanings -/

theorem exec_ldBVx (x : Reg) (s : State) :
    exec (.ldBVx x) s =
      .next (((s.memWrite (s.indexed 0) (hundreds (s.getV x))).memWrite (s.indexed 1) (tens (s.getV x))).memWrite
        (s.indexed 2) (ones (s.getV x))) := rfl

theorem exec_ldMemVx (x : Reg) (s : State) : exec (.ldMemVx x) s = .next (State.storeRegs (x.toNat + 1) s) := rfl

theorem exec_ldVxMem (x : Reg) (s : State) : exec (.ldVxMem x) s = .next (State.loadRegs (x.toNat + 1) s) := rfl

/-! ### Addresses from I on -/

theorem State.toNat_indexed_sub_i (s : State) {k : Nat} (hk : k < 4096) : (s.indexed k - s.i).toNat = k :=
  (s.eq_indexed_iff (s.indexed k) hk).1 rfl

theorem State.indexed_inj (s : State) {j k : Nat} (hj : j < 4096) (hk : k < 4096) : s.indexed j = s.indexed k ↔ j = k := by
  rw [s.eq_indexed_iff (s.indexed j) hk, s.toNat_indexed_sub_i hj]

/-! ### The block store -/

/-- After a block store of V0 to Vn, V[r] stands at `I + r` modulo 4096. -/
theorem State.memRead_storeRegs_indexed (s : State) {n : Nat} (hn : n < 16) {r : Reg} (hr : r.toNat ≤ n) :
    (State.storeRegs (n + 1) s).memRead (s.indexed r.toNat) = s.getV r := by
  rw [State.memRead_storeRegs (by omega), s.toNat_indexed_sub_i (by omega), if_pos (by omega), BitVec.ofNat_toNat,
    BitVec.setWidth_eq]

/-- A block store of V0 to Vn changes nothing but the bytes at `I + k` modulo 4096 for k up to n. -/
theorem State.onlyMem_storeRegs (s : State) {n : Nat} (hn : n < 16) :
    OnlyMem (fun a => ∃ k, k ≤ n ∧ a = s.indexed k) s (State.storeRegs (n + 1) s) := by
  refine ⟨State.storeRegs_eq _ s, State.getV_storeRegs _ s, fun a ha => ?_⟩
  have hout : ¬ (a - s.i).toNat < n + 1 := fun h =>
    ha ⟨_, Nat.lt_succ_iff.1 h, (s.eq_indexed_iff a (by omega)).2 rfl⟩
  rw [State.memRead_storeRegs (by omega), if_neg hout]

/-- Settles O34: LD [I], Vx is the block store of V0 to Vx. -/
theorem blockStoreWritesV0ToVx : Obligations.BlockStoreWritesV0ToVx :=
  fun x s => ⟨decodeWord_encode_ldMemVx x, _, exec_ldMemVx x s, fun _ => s.memRead_storeRegs_indexed x.isLt,
    s.onlyMem_storeRegs x.isLt⟩

/-! ### The block load -/

/-- After a block load of V0 to Vn, V[r] is the byte at `I + r` modulo 4096. -/
theorem State.getV_loadRegs_of_le (s : State) {n : Nat} (hn : n < 16) {r : Reg} (hr : r.toNat ≤ n) :
    (State.loadRegs (n + 1) s).getV r = s.memRead (s.indexed r.toNat) := by
  rw [State.getV_loadRegs hn, if_pos (Nat.lt_succ_iff.2 hr)]

/-- A block load of V0 to Vn changes nothing but these registers. -/
theorem State.onlyRegs_loadRegs (s : State) {n : Nat} (hn : n < 16) :
    OnlyRegs (fun r => r.toNat ≤ n) s (State.loadRegs (n + 1) s) := by
  refine ⟨State.loadRegs_eq _ s, fun r hr => ?_, State.memRead_loadRegs _ s⟩
  rw [State.getV_loadRegs hn, if_neg (fun h => hr (Nat.lt_succ_iff.1 h))]

/-- A block load after a block store brings V0 to Vn back, whatever the registers hold in between. -/
theorem State.getV_loadRegs_storeRegs (s : State) {n : Nat} (hn : n < 16) (v : Vector Byte 16) {r : Reg} (hr : r.toNat ≤ n) :
    (State.loadRegs (n + 1) { State.storeRegs (n + 1) s with v := v }).getV r = s.getV r := by
  calc (State.loadRegs (n + 1) { State.storeRegs (n + 1) s with v := v }).getV r
    _ = (State.storeRegs (n + 1) s).memRead ((State.storeRegs (n + 1) s).indexed r.toNat) := State.getV_loadRegs_of_le _ hn hr
    _ = (State.storeRegs (n + 1) s).memRead (s.indexed r.toNat) := by rw [State.indexed_storeRegs]
    _ = s.getV r := s.memRead_storeRegs_indexed hn hr

/-- Settles O35: LD Vx, [I] is the block load of V0 to Vx, and it reads back what the block store of LD [I], Vx wrote. -/
theorem blockLoadReadsV0ToVx : Obligations.BlockLoadReadsV0ToVx :=
  ⟨fun x s => ⟨decodeWord_encode_ldVxMem x, _, exec_ldVxMem x s, fun _ => s.getV_loadRegs_of_le x.isLt,
      s.onlyRegs_loadRegs x.isLt⟩,
    fun x s => ⟨_, exec_ldMemVx x s, fun v => ⟨_, exec_ldVxMem x _, fun _ => s.getV_loadRegs_storeRegs x.isLt v⟩⟩⟩

/-! ### The decimal digits -/

theorem toNat_hundreds (b : Byte) : (hundreds b).toNat = b.toNat / 100 :=
  (BitVec.toNat_ofNat _ _).trans (Nat.mod_eq_of_lt (by omega))

theorem toNat_tens (b : Byte) : (tens b).toNat = b.toNat / 10 % 10 :=
  (BitVec.toNat_ofNat _ _).trans (Nat.mod_eq_of_lt (by omega))

theorem toNat_ones (b : Byte) : (ones b).toNat = b.toNat % 10 :=
  (BitVec.toNat_ofNat _ _).trans (Nat.mod_eq_of_lt (by omega))

/-- A memory write changes nothing but the byte at its address. -/
theorem State.onlyMem_memWrite (s : State) (a : Addr) (b : Byte) : OnlyMem (· = a) s (s.memWrite a b) :=
  ⟨rfl, s.getV_memWrite a b, fun a' ha => by rw [State.memRead_memWrite, if_neg ha]⟩

/-- What two changes of memory store is what either of them stores. -/
theorem OnlyMem.trans {p q : Addr → Prop} {s t u : State} (hst : OnlyMem p s t) (htu : OnlyMem q t u) :
    OnlyMem (fun a => p a ∨ q a) s u := by
  obtain ⟨ht, htv, htm⟩ := hst
  obtain ⟨hu, huv, hum⟩ := htu
  refine ⟨?_, fun r => (huv r).trans (htv r), fun a ha => ?_⟩
  · exact hu.trans (congrArg (fun r : State => { r with mem := u.mem }) ht)
  · obtain ⟨hp, hq⟩ := not_or.1 ha
    exact (hum a hq).trans (htm a hp)

/-- Settles O33: LD B is three memory writes, of the three digits, at three different addresses. -/
theorem bcdStoresThreeDigits : Obligations.BcdStoresThreeDigits := by
  refine fun x s => ⟨decodeWord_encode_ldBVx x, _, exec_ldBVx x s, ?_, ?_, ?_,
    (s.onlyMem_memWrite _ _).trans ((State.onlyMem_memWrite _ _ _).trans (State.onlyMem_memWrite _ _ _))⟩
  · simp [s.indexed_inj, toNat_hundreds]
  · simp [s.indexed_inj, toNat_tens]
  · simp [toNat_ones]

end Sys2Proof.Machine
end

section
/-! The delay timer (R115, R116): its two instructions copy it, and a tick counts it down before its instruction runs. O40. -/
namespace Sys2Proof.Machine

theorem decodeWord_encode_ldVxDt (x : Reg) : decodeWord (encode (.ldVxDt x)) = .ldVxDt x := by
  simp [encode, decodeWord_packXKK_F, decodeGroupF]

theorem decodeWord_encode_ldDtVx (x : Reg) : decodeWord (encode (.ldDtVx x)) = .ldDtVx x := by
  simp [encode, decodeWord_packXKK_F, decodeGroupF]

theorem exec_ldVxDt (x : Reg) (s : State) : exec (.ldVxDt x) s = .next (s.setV x s.dt) := rfl

theorem exec_ldDtVx (x : Reg) (s : State) : exec (.ldDtVx x) s = .next { s with dt := s.getV x } := rfl

/-- Counting a timer down is subtraction that stops at 0 (R135). -/
theorem toNat_countDown (t : Byte) : (countDown t).toNat = t.toNat - 1 := by
  by_cases h : t = 0#8
  · subst h
    rfl
  · rw [countDown, if_neg h]
    bv_omega

/-- LD Vx, DT reads the timer as step 3 of its own tick left it (R115). -/
theorem tickWith_ldVxDt {s : State} {x : Reg} (hs : s.halted = false) (hi : s.instrAt s.pc = .ldVxDt x) (inp : TickInput) :
    tickWith inp s = .next ((s.beginTick inp).fetchAdvance.setV x (countDown s.dt)) := by
  rw [tickWith_running hs, hi, exec_ldVxDt, State.fetchAdvance_dt, State.beginTick_dt]

/-- LD DT, Vx replaces the timer after step 3 of its own tick, so the byte stands uncounted when the tick ends (R116). -/
theorem tickWith_ldDtVx {s : State} {x : Reg} (hs : s.halted = false) (hi : s.instrAt s.pc = .ldDtVx x) (inp : TickInput) :
    tickWith inp s = .next { (s.beginTick inp).fetchAdvance with dt := s.getV x } := by
  rw [tickWith_running hs, hi, exec_ldDtVx, State.getV_fetchAdvance, State.getV_beginTick]

/-- Settles O40: LD Vx, DT is one write of V[x], LD DT, Vx is one write of DT, and in a tick both come after the count down of step 3. -/
theorem delayTimerCopies : Obligations.DelayTimerCopies := by
  refine ⟨fun x s => ⟨decodeWord_encode_ldVxDt x, decodeWord_encode_ldDtVx x,
    exec_writes_only_of_setV (exec_ldVxDt x s), exec_ldDtVx x s⟩, fun inp s x hs => ⟨fun hi => ?_, fun hi => ?_⟩⟩
  · refine ⟨_, tickWith_ldVxDt hs hi inp, ?_⟩
    rw [State.getV_setV, if_pos rfl, toNat_countDown]
  · exact ⟨_, tickWith_ldDtVx hs hi inp, rfl⟩

end Sys2Proof.Machine
end

section
/-! CLS (R122): it unsets the screen and sets DIRTY, so the next tick renders the clear screen. O47. -/
namespace Sys2Proof.Machine

theorem decodeWord_cls : decodeWord 0x00E0#16 = .cls := by decide

theorem exec_cls (s : State) : exec .cls s = .next { s with fb := 0#2048, dirty := true } := rfl

/-- Every pixel of the zero framebuffer is unset, on the screen and beyond it. -/
@[simp] theorem pixel_zero (x y : Nat) : pixel 0#2048 x y = false := BitVec.getLsbD_zero

/-- A running tick on CLS is its first four steps and the fetch advance, with the screen then clear and DIRTY set again after step 2. -/
theorem tickWith_cls {s : State} (hs : s.halted = false) (hi : s.instrAt s.pc = .cls) (inp : TickInput) :
    tickWith inp s = .next { (s.beginTick inp).fetchAdvance with fb := 0#2048, dirty := true } := by
  rw [tickWith_running hs, hi, exec_cls]

/-- A running tick renders the screen it found exactly if DIRTY was set, whatever its instruction is (R75). -/
theorem tickWith_render {s : State} (hs : s.halted = false) (inp : TickInput) :
    ∃ t, tickWith inp s = .next t ∧ t.render = if s.dirty = true then some s.fb else none := by
  obtain ⟨t, ht, hk⟩ := tickWith_housekeeping hs inp
  exact ⟨t, ht, congrArg Housekeeping.render hk⟩

/-- Settles O47: CLS is one write of the zero framebuffer and of DIRTY; its tick does not halt and leaves both, so the next tick finds
DIRTY set and renders that framebuffer. -/
theorem clsUnsetsEveryPixel : Obligations.ClsUnsetsEveryPixel := by
  refine fun s => ⟨decodeWord_cls, ⟨_, exec_cls s, fun x y _ _ => pixel_zero x y, rfl, rfl⟩, fun inp inp' hs hi => ?_⟩
  have hrun : ((s.beginTick inp).fetchAdvance).halted = false := hs
  obtain ⟨u, hu, hrender⟩ :=
    tickWith_render (s := { (s.beginTick inp).fetchAdvance with fb := 0#2048, dirty := true }) hrun inp'
  exact ⟨_, u, tickWith_cls hs hi inp, rfl, hu, hrender⟩

end Sys2Proof.Machine
end

section
/-! Both timers (R135): a running tick counts each of them down in its step 3, before its instruction, and no instruction but LD DT, Vx
and LD ST, Vx writes one. O10. -/
namespace Sys2Proof.Machine

/-! ### A skip and a block transfer keep both timers -/

@[simp] theorem State.skipIf_dt (s : State) (c : Bool) : (s.skipIf c).dt = s.dt := by rw [s.skipIf_eq, State.jump_dt]
@[simp] theorem State.skipIf_st (s : State) (c : Bool) : (s.skipIf c).st = s.st := by rw [s.skipIf_eq, State.jump_st]
@[simp] theorem State.storeRegs_dt (s : State) (n : Nat) : (State.storeRegs n s).dt = s.dt := by rw [State.storeRegs_eq]
@[simp] theorem State.storeRegs_st (s : State) (n : Nat) : (State.storeRegs n s).st = s.st := by rw [State.storeRegs_eq]
@[simp] theorem State.loadRegs_dt (s : State) (n : Nat) : (State.loadRegs n s).dt = s.dt := by rw [State.loadRegs_eq]
@[simp] theorem State.loadRegs_st (s : State) (n : Nat) : (State.loadRegs n s).st = s.st := by rw [State.loadRegs_eq]

/-! ### What an instruction and a tick do to the timers -/

theorem exec_ldStVx (x : Reg) (s : State) : exec (.ldStVx x) s = .next { s with st := s.getV x } := rfl

/-- An instruction leaves DT alone unless it is LD DT, Vx, and ST alone unless it is LD ST, Vx (R135). -/
theorem exec_timers_frame (i : Instr) (s : State) :
    ∃ t, exec i s = .next t ∧ ((∀ x, i ≠ .ldDtVx x) → t.dt = s.dt) ∧ ((∀ x, i ≠ .ldStVx x) → t.st = s.st) := by
  cases i with
  | ldDtVx x => exact ⟨_, exec_ldDtVx x s, fun h => absurd rfl (h x), fun _ => rfl⟩
  | ldStVx x => exact ⟨_, exec_ldStVx x s, fun _ => rfl, fun h => absurd rfl (h x)⟩
  | call nnn =>
    by_cases h : s.sp.val < 16
    · exact ⟨_, exec_call_of_room nnn h, fun _ => rfl, fun _ => rfl⟩
    · exact ⟨_, exec_call_of_full nnn h, fun _ => rfl, fun _ => rfl⟩
  | ret =>
    by_cases h : 0 < s.sp.val
    · exact ⟨_, exec_ret_of_entry h, fun _ => rfl, fun _ => rfl⟩
    · exact ⟨_, exec_ret_of_empty h, fun _ => rfl, fun _ => rfl⟩
  | seVxKk x kk | sneVxKk x kk | seVxVy x y | sneVxVy x y =>
    exact ⟨_, rfl, fun _ => s.skipIf_dt _, fun _ => s.skipIf_st _⟩
  | skpVx x =>
    rcases Nat.lt_or_ge (s.getV x).toNat 16 with h | h
    · exact ⟨_, exec_skpVx_of_index h, fun _ => s.skipIf_dt _, fun _ => s.skipIf_st _⟩
    · exact ⟨_, exec_skpVx_of_invalid h, fun _ => rfl, fun _ => rfl⟩
  | sknpVx x =>
    rcases Nat.lt_or_ge (s.getV x).toNat 16 with h | h
    · exact ⟨_, exec_sknpVx_of_index h, fun _ => s.skipIf_dt _, fun _ => s.skipIf_st _⟩
    · exact ⟨_, exec_sknpVx_of_invalid h, fun _ => rfl, fun _ => rfl⟩
  | ldVxK x =>
    cases h : leastKey s.key with
    | some k => exact ⟨_, exec_ldVxK_of_key h, fun _ => rfl, fun _ => rfl⟩
    | none => exact ⟨_, exec_ldVxK_of_no_key h, fun _ => rfl, fun _ => rfl⟩
  | ldMemVx x => exact ⟨_, exec_ldMemVx x s, fun _ => s.storeRegs_dt _, fun _ => s.storeRegs_st _⟩
  | ldVxMem x => exact ⟨_, exec_ldVxMem x s, fun _ => s.loadRegs_dt _, fun _ => s.loadRegs_st _⟩
  | _ => exact ⟨_, rfl, fun _ => rfl, fun _ => rfl⟩

/-- A running tick ends with each timer counted down once, unless its instruction is the one that writes that timer. -/
theorem tickWith_timers {s : State} (hs : s.halted = false) (inp : TickInput) :
    ∃ t, tickWith inp s = .next t ∧
      ((∀ x, s.instrAt s.pc ≠ .ldDtVx x) → t.dt = countDown s.dt) ∧
      ((∀ x, s.instrAt s.pc ≠ .ldStVx x) → t.st = countDown s.st) := by
  rw [tickWith_running hs]
  exact exec_timers_frame (s.instrAt s.pc) (s.beginTick inp).fetchAdvance

/-- LD ST, Vx replaces the timer after step 3 of its own tick, so the byte stands uncounted when the tick ends (R117). -/
theorem tickWith_ldStVx {s : State} {x : Reg} (hs : s.halted = false) (hi : s.instrAt s.pc = .ldStVx x) (inp : TickInput) :
    tickWith inp s = .next { (s.beginTick inp).fetchAdvance with st := s.getV x } := by
  rw [tickWith_running hs, hi, exec_ldStVx, State.getV_fetchAdvance, State.getV_beginTick]

/-- Settles O10: the tick of any instruction counts down each timer the instruction does not write; the ticks of LD DT, Vx, LD ST, Vx
and LD Vx, DT are known in full, and the last of them copies the DT that step 3 left. -/
theorem timersCountDownEveryTick : Obligations.TimersCountDownEveryTick := by
  intro inp s hs
  obtain ⟨t, ht, hdt, hst⟩ := tickWith_timers hs inp
  have ht_eq {u : State} (hu : tickWith inp s = .next u) : t = u := Host.Outcome.next.inj (ht.symm.trans hu)
  refine ⟨t, ht, fun h => ?_, fun x hi => ?_, fun h => ?_, fun x hi => ?_, fun x hi => ?_⟩
  · rw [hdt h, toNat_countDown]
  · rw [ht_eq (tickWith_ldDtVx hs hi inp)]
  · rw [hst h, toNat_countDown]
  · rw [ht_eq (tickWith_ldStVx hs hi inp)]
  · rw [ht_eq (tickWith_ldVxDt hs hi inp), State.getV_setV, if_pos rfl, toNat_countDown]

end Sys2Proof.Machine
end

section
/-! The decoder against the encoder and the opcode map (R63 to R71): decoding and encoding undo each other, the rows of the map are
disjoint, and the decoder gives each word the row that covers it. O1 to O6. -/
namespace Sys2Proof

/-! ### A word put together from the fields it is known to have -/

theorem packNNN_of_fieldO {w : Word} {o : Nibble} (h : fieldO w = o) : packNNN o (fieldNNN w) = w := by
  rw [← h, packNNN_fields]

theorem packXKK_of_fieldO {w : Word} {o : Nibble} (h : fieldO w = o) : packXKK o (fieldX w) (fieldKK w) = w := by
  rw [← h, packXKK_fields]

theorem packXYN_of_fieldO {w : Word} {o : Nibble} (h : fieldO w = o) : packXYN o (fieldX w) (fieldY w) (fieldN w) = w := by
  rw [← h, packXYN_fields]

theorem packXKK_of_low_byte {w : Word} {o : Nibble} {kk : Byte} (h : fieldO w = o) (hkk : fieldKK w = kk) :
    packXKK o (fieldX w) kk = w := by
  rw [← hkk, packXKK_of_fieldO h]

theorem packXYN_of_function {w : Word} {o n : Nibble} (h : fieldO w = o) (hn : fieldN w = n) :
    packXYN o (fieldX w) (fieldY w) n = w := by
  rw [← hn, packXYN_of_fieldO h]

/-! ### Every word is the encoding of what it decodes to -/

/-- Reading a word as `i` loses nothing of it: `i` is well-formed and its encoding is the word. -/
def FaithfulReading (w : Word) (i : Instr) : Prop := i.wf = true ∧ encode i = w

theorem FaithfulReading.nop {w : Word} (h : nopWord w = true) : FaithfulReading w (.nop w) := ⟨h, rfl⟩

theorem faithful_decodeGroup0 {w : Word} (h : fieldO w = 0x0#4) : FaithfulReading w (decodeGroup0 w) := by
  unfold decodeGroup0
  split_ifs with h1 h2
  · exact ⟨rfl, h1.symm⟩
  · exact ⟨rfl, h2.symm⟩
  · exact .nop (by simp [nopWord, h, h1, h2])

/-- A fourth nibble selects one of the nine operations of first nibble 0x8, or stands in R69's list. -/
theorem functionNibble_listed (n : Nibble) :
    n ∈ [0x0#4, 0x1#4, 0x2#4, 0x3#4, 0x4#4, 0x5#4, 0x6#4, 0x7#4, 0xE#4] ∨
    n ∈ [0x8#4, 0x9#4, 0xA#4, 0xB#4, 0xC#4, 0xD#4, 0xF#4] := by
  revert n; decide

theorem faithful_decodeGroup8 {w : Word} (h : fieldO w = 0x8#4) : FaithfulReading w (decodeGroup8 w) := by
  unfold decodeGroup8
  split_ifs
  case neg =>
    refine .nop ?_
    have hn := (functionNibble_listed (fieldN w)).resolve_left (by simp [*])
    simpa [nopWord, h] using hn
  all_goals exact ⟨rfl, packXYN_of_function h ‹_›⟩

theorem faithful_decodeGroupE {w : Word} (h : fieldO w = 0xE#4) : FaithfulReading w (decodeGroupE w) := by
  unfold decodeGroupE
  split_ifs with h1 h2
  · exact ⟨rfl, packXKK_of_low_byte h h1⟩
  · exact ⟨rfl, packXKK_of_low_byte h h2⟩
  · exact .nop (by simp [nopWord, h, h1, h2])

theorem faithful_decodeGroupF {w : Word} (h : fieldO w = 0xF#4) : FaithfulReading w (decodeGroupF w) := by
  unfold decodeGroupF
  split_ifs
  case neg => exact .nop (by simp [nopWord, *])
  all_goals exact ⟨rfl, packXKK_of_low_byte h ‹_›⟩

theorem nibble_cases (a : Nibble) :
    a = 0x0#4 ∨ a = 0x1#4 ∨ a = 0x2#4 ∨ a = 0x3#4 ∨ a = 0x4#4 ∨ a = 0x5#4 ∨ a = 0x6#4 ∨ a = 0x7#4 ∨ a = 0x8#4 ∨ a = 0x9#4 ∨
    a = 0xA#4 ∨ a = 0xB#4 ∨ a = 0xC#4 ∨ a = 0xD#4 ∨ a = 0xE#4 ∨ a = 0xF#4 := by
  revert a; decide

/-- The reading a word of first nibble `o` is known to have, if that is a faithful one. -/
theorem FaithfulReading.of_eq {w : Word} {i : Instr} (e : decodeWord w = i) (h : FaithfulReading w i) :
    FaithfulReading w (decodeWord w) := e ▸ h

/-- The decoder's reading of every word is faithful: the sixteen first nibbles (R63 to R70). -/
theorem faithful_decodeWord (w : Word) : FaithfulReading w (decodeWord w) := by
  rcases nibble_cases (fieldO w) with h | h | h | h | h | h | h | h | h | h | h | h | h | h | h | h
  · exact .of_eq (by simp [decodeWord, h]) (faithful_decodeGroup0 h)
  · exact .of_eq (i := .jp (fieldNNN w)) (by simp [decodeWord, h]) ⟨rfl, packNNN_of_fieldO h⟩
  · exact .of_eq (i := .call (fieldNNN w)) (by simp [decodeWord, h]) ⟨rfl, packNNN_of_fieldO h⟩
  · exact .of_eq (i := .seVxKk (fieldX w) (fieldKK w)) (by simp [decodeWord, h]) ⟨rfl, packXKK_of_fieldO h⟩
  · exact .of_eq (i := .sneVxKk (fieldX w) (fieldKK w)) (by simp [decodeWord, h]) ⟨rfl, packXKK_of_fieldO h⟩
  · by_cases hn : fieldN w = 0x0#4
    · exact .of_eq (i := .seVxVy (fieldX w) (fieldY w)) (by simp [decodeWord, h, hn]) ⟨rfl, packXYN_of_function h hn⟩
    · exact .of_eq (by simp [decodeWord, h, hn]) (.nop (by simp [nopWord, h, hn]))
  · exact .of_eq (i := .ldVxKk (fieldX w) (fieldKK w)) (by simp [decodeWord, h]) ⟨rfl, packXKK_of_fieldO h⟩
  · exact .of_eq (i := .addVxKk (fieldX w) (fieldKK w)) (by simp [decodeWord, h]) ⟨rfl, packXKK_of_fieldO h⟩
  · exact .of_eq (by simp [decodeWord, h]) (faithful_decodeGroup8 h)
  · by_cases hn : fieldN w = 0x0#4
    · exact .of_eq (i := .sneVxVy (fieldX w) (fieldY w)) (by simp [decodeWord, h, hn]) ⟨rfl, packXYN_of_function h hn⟩
    · exact .of_eq (by simp [decodeWord, h, hn]) (.nop (by simp [nopWord, h, hn]))
  · exact .of_eq (i := .ldINnn (fieldNNN w)) (by simp [decodeWord, h]) ⟨rfl, packNNN_of_fieldO h⟩
  · exact .of_eq (i := .jpV0Nnn (fieldNNN w)) (by simp [decodeWord, h]) ⟨rfl, packNNN_of_fieldO h⟩
  · exact .of_eq (i := .rndVxKk (fieldX w) (fieldKK w)) (by simp [decodeWord, h]) ⟨rfl, packXKK_of_fieldO h⟩
  · exact .of_eq (i := .drw (fieldX w) (fieldY w) (fieldN w)) (by simp [decodeWord, h]) ⟨rfl, packXYN_of_fieldO h⟩
  · exact .of_eq (by simp [decodeWord, h]) (faithful_decodeGroupE h)
  · exact .of_eq (by simp [decodeWord, h]) (faithful_decodeGroupF h)

/-- Settles O2: the decoder's reading of every word is faithful. -/
theorem encodeOfDecodeIsIdentity : Obligations.EncodeOfDecodeIsIdentity := faithful_decodeWord

/-! ### The opcode map -/

/-- No two rows agree on the bits that both of them fix. -/
theorem opcodeMap_apart : ∀ r ∈ opcodeMap, ∀ r' ∈ opcodeMap, r.value &&& r'.mask = r'.value &&& r.mask → r = r' := by
  decide

theorem value_and_mask_of_covers {r r' : OpcodeRow} {w : Word} (h : r.covers w = true) (h' : r'.covers w = true) :
    r.value &&& r'.mask = r'.value &&& r.mask := by
  simp only [OpcodeRow.covers, beq_iff_eq] at h h'
  rw [← h, ← h', BitVec.and_assoc, BitVec.and_assoc, BitVec.and_comm r.mask]

theorem eq_of_covers {w : Word} {r r' : OpcodeRow} (hr : r ∈ opcodeMap) (hr' : r' ∈ opcodeMap) (h : r.covers w = true)
    (h' : r'.covers w = true) : r = r' :=
  opcodeMap_apart r hr r' hr' (value_and_mask_of_covers h h')

/-- Settles O3: two rows that cover a word agree on the bits that both fix, and no two rows of the map do. -/
theorem opcodeMapRowsAreDisjoint : Obligations.OpcodeMapRowsAreDisjoint :=
  ⟨rfl, fun _ _ hr _ hr' => eq_of_covers hr hr'⟩

open Laws in
/-- The row of its mnemonic covers the word of every instruction (Laws/PerInstr.lean, put together). -/
theorem encodingRow : ∀ i : Instr, EncodingRow.Statement i
  | .cls => EncodingRow.cls | .ret => EncodingRow.ret | .jp nnn => EncodingRow.jp nnn | .call nnn => EncodingRow.call nnn
  | .seVxKk x kk => EncodingRow.seVxKk x kk | .sneVxKk x kk => EncodingRow.sneVxKk x kk
  | .seVxVy x y => EncodingRow.seVxVy x y | .ldVxKk x kk => EncodingRow.ldVxKk x kk
  | .addVxKk x kk => EncodingRow.addVxKk x kk | .ldVxVy x y => EncodingRow.ldVxVy x y | .orVxVy x y => EncodingRow.orVxVy x y
  | .andVxVy x y => EncodingRow.andVxVy x y | .xorVxVy x y => EncodingRow.xorVxVy x y
  | .addVxVy x y => EncodingRow.addVxVy x y | .subVxVy x y => EncodingRow.subVxVy x y | .shrVx x y => EncodingRow.shrVx x y
  | .subnVxVy x y => EncodingRow.subnVxVy x y | .shlVx x y => EncodingRow.shlVx x y | .sneVxVy x y => EncodingRow.sneVxVy x y
  | .ldINnn nnn => EncodingRow.ldINnn nnn | .jpV0Nnn nnn => EncodingRow.jpV0Nnn nnn
  | .rndVxKk x kk => EncodingRow.rndVxKk x kk | .drw x y n => EncodingRow.drw x y n | .skpVx x => EncodingRow.skpVx x
  | .sknpVx x => EncodingRow.sknpVx x | .ldVxDt x => EncodingRow.ldVxDt x | .ldVxK x => EncodingRow.ldVxK x
  | .ldDtVx x => EncodingRow.ldDtVx x | .ldStVx x => EncodingRow.ldStVx x | .addIVx x => EncodingRow.addIVx x
  | .ldFVx x => EncodingRow.ldFVx x | .ldBVx x => EncodingRow.ldBVx x | .ldMemVx x => EncodingRow.ldMemVx x
  | .ldVxMem x => EncodingRow.ldVxMem x | .nop w => EncodingRow.nop w

/-- The decoder gives a word the mnemonic of a row that covers it, or the NOP tag where none does: the faithful reading of the word is an
instruction, and its row covers its encoding. -/
theorem decodeWord_row (w : Word) :
    (∃ r ∈ opcodeMap, r.mnemonic = (decodeWord w).mnemonic ∧ r.covers w = true) ∨
    (decodeWord w = .nop w ∧ ∀ r ∈ opcodeMap, r.covers w = false) := by
  obtain ⟨hwf, he⟩ := faithful_decodeWord w
  have h := encodingRow (decodeWord w) hwf
  rwa [he] at h

theorem decodeWord_of_not_covered {w : Word} (h : ∀ r ∈ opcodeMap, r.covers w = false) : decodeWord w = .nop w := by
  rcases decodeWord_row w with ⟨r, hr, -, hc⟩ | ⟨hnop, -⟩
  · exact absurd hc (by simp [h r hr])
  · exact hnop

/-- Settles O4: the row whose mnemonic the decoder gives is the only one that covers the word. -/
theorem decoderFollowsOpcodeMap : Obligations.DecoderFollowsOpcodeMap := by
  refine fun w => ⟨fun r hr hc => ?_, decodeWord_of_not_covered⟩
  rcases decodeWord_row w with ⟨r', hr', hm, hc'⟩ | ⟨-, hnone⟩
  · rw [← hm, eq_of_covers hr' hr hc' hc]
  · exact absurd hc (by simp [hnone r hr])

/-! ### The NOP tag -/

/-- The words of the NOP tag are those of the list (R69): a word of the list no row covers, and a faithful NOP tag carries a word of the
list. -/
theorem decodeWord_eq_nop_iff (w : Word) : decodeWord w = .nop w ↔ nopWord w = true := by
  constructor
  · intro h
    have hwf := (faithful_decodeWord w).1
    rwa [h] at hwf
  · exact fun h => decodeWord_of_not_covered fun r hr => Laws.EncodingRow.nopWord_not_covered h hr

/-- Settles O5: the list of R69, with its six alternatives in the statement's order. -/
theorem nopTagWordsAreTheList : Obligations.NopTagWordsAreTheList := by
  intro w
  rw [decodeWord_eq_nop_iff]
  simp [nopWord, fieldO, fieldN, fieldKK, or_and_right, or_assoc]

/-! ### Decoding what was encoded -/

theorem decodeWord_encode {i : Instr} (h : i.wf = true) : decodeWord (encode i) = i := by
  cases i with
  | cls | ret => decide
  | nop w => exact (decodeWord_eq_nop_iff w).2 h
  | _ => simp [encode, decodeWord, decodeGroup8, decodeGroupE, decodeGroupF]

/-- Settles O1: the two bytes of the encoding join to its word, and the word decodes to the instruction. -/
theorem decodeOfEncodeIsIdentity : Obligations.DecodeOfEncodeIsIdentity := by
  intro i rest h
  calc decode (encodeBytes i ++ rest)
    _ = .ok (decodeWord (joinBytes ((encode i).extractLsb' 8 8) ((encode i).extractLsb' 0 8)), rest) := rfl
    _ = .ok (i, rest) := by rw [joinBytes_halves, decodeWord_encode h]

/-- Settles O6: twelve words, each read by the decoder. -/
theorem writtenOutWordsDecode : Obligations.WrittenOutWordsDecode := by
  unfold Obligations.WrittenOutWordsDecode
  decide

end Sys2Proof
end

section
/-! What an instruction can do to the pieces of state that most instructions neither read nor write: the stack, the framebuffer, the fault
status and the tone; and which conditions it raises (R125). O15, O19 and O51. -/
namespace Sys2Proof.Machine

/-- What holds of the next state of an outcome holds of any name that state goes by. -/
theorem holds_of_next {r : Result} {t : State} {P : State → Prop} (h : ∃ u, r = .next u ∧ P u) (ht : r = .next t) : P t := by
  obtain ⟨u, hu, hP⟩ := h
  obtain rfl : u = t := Host.Outcome.next.inj (hu.symm.trans ht)
  exact hP

/-! ### Conditions -/

/-- The instruction raises the condition in this state (R125 to R128). -/
def Raises (i : Instr) (s : State) : Condition → Prop
  | .stackOverflow => s.sp.val = 16 ∧ ∃ nnn, i = .call nnn
  | .stackUnderflow => s.sp.val = 0 ∧ i = .ret
  | .invalidKeyIndex => ∃ x, 15 < (s.getV x).toNat ∧ (i = .skpVx x ∨ i = .sknpVx x)

theorem exists_raises_iff (i : Instr) (s : State) :
    (∃ f, Raises i s f) ↔
      ((∃ nnn, i = .call nnn) ∧ s.sp.val = 16) ∨ (i = .ret ∧ s.sp.val = 0) ∨
      ∃ x, (i = .skpVx x ∨ i = .sknpVx x) ∧ 15 < (s.getV x).toNat := by
  constructor
  · rintro ⟨f, hf⟩
    cases f with
    | stackOverflow => exact .inl hf.symm
    | stackUnderflow => exact .inr (.inl hf.symm)
    | invalidKeyIndex => exact .inr (.inr (hf.imp fun _ h => h.symm))
  · rintro (h | h | h)
    · exact ⟨.stackOverflow, h.symm⟩
    · exact ⟨.stackUnderflow, h.symm⟩
    · exact ⟨.invalidKeyIndex, h.imp fun _ h => h.symm⟩

/-- Which conditions an instruction raises depends on SP and V alone. -/
theorem raises_congr {s t : State} (hsp : t.sp = s.sp) (hv : t.v = s.v) (i : Instr) (f : Condition) :
    Raises i t f ↔ Raises i s f := by
  cases f <;> simp only [Raises, State.getV, hsp, hv]

/-- The cause that a halted block records is that the instruction at FAULT_PC raises the condition (R129, R130). -/
theorem causeHolds_iff (s : State) (f : Condition) : s.causeHolds f ↔ Raises (s.instrAt s.faultPc) s f := by
  cases f <;> rfl

/-- An instruction that raises a condition does nothing but the fault entry (R129, R130). -/
theorem exec_of_raises {i : Instr} {s : State} {f : Condition} (h : Raises i s f) : exec i s = .next (s.raise f) := by
  cases f with
  | stackOverflow =>
    obtain ⟨hsp, nnn, rfl⟩ := h
    exact exec_call_of_full nnn (by omega)
  | stackUnderflow =>
    obtain ⟨hsp, rfl⟩ := h
    exact exec_ret_of_empty (by omega)
  | invalidKeyIndex =>
    obtain ⟨x, hx, rfl | rfl⟩ := h
    · exact exec_skpVx_of_invalid hx
    · exact exec_sknpVx_of_invalid hx

/-- Settles O15: the four cases in which an instruction raises a condition, each a fault entry. -/
theorem faultEntryOfEachCondition : Obligations.FaultEntryOfEachCondition := fun _ =>
  ⟨fun nnn h => exec_of_raises (f := .stackOverflow) ⟨h, nnn, rfl⟩,
   fun h => exec_of_raises (f := .stackUnderflow) ⟨h, rfl⟩,
   fun x h => exec_of_raises (f := .invalidKeyIndex) ⟨x, h, .inl rfl⟩,
   fun x h => exec_of_raises (f := .invalidKeyIndex) ⟨x, h, .inr rfl⟩⟩

/-! ### The bystanders -/

/-- The pieces of state that an instruction neither reads nor writes, unless it draws, calls, returns or raises a condition. -/
structure Bystanders where
  sp : Fin 17
  stack : Vector Addr 16
  fb : Framebuffer
  halted : Bool
  faultCode : BitVec 2
  faultPc : Addr
  tone : Bool

/-- The bystanders of a state. -/
def State.bystanders (s : State) : Bystanders := ⟨s.sp, s.stack, s.fb, s.halted, s.faultCode, s.faultPc, s.tone⟩

/-- The state with other bystanders. -/
def State.withBystanders (s : State) (b : Bystanders) : State :=
  { s with sp := b.sp, stack := b.stack, fb := b.fb, halted := b.halted, faultCode := b.faultCode, faultPc := b.faultPc,
           tone := b.tone }

/-- An instruction that neither draws, calls nor returns. -/
def Plain : Instr → Bool
  | .cls | .drw _ _ _ | .call _ | .ret => false
  | _ => true

theorem State.skipIf_withBystanders (s : State) (b : Bystanders) (c : Bool) :
    (s.withBystanders b).skipIf c = (s.skipIf c).withBystanders b := by cases c <;> rfl

theorem State.storeRegs_withBystanders (n : Nat) (s : State) (b : Bystanders) :
    State.storeRegs n (s.withBystanders b) = (State.storeRegs n s).withBystanders b := by
  rw [State.storeRegs_eq n (s.withBystanders b), State.storeRegs_eq n s,
    State.storeRegs_mem_congr n (s' := s.withBystanders b) (s := s) rfl rfl rfl]
  rfl

theorem State.loadRegs_withBystanders (n : Nat) (s : State) (b : Bystanders) :
    State.loadRegs n (s.withBystanders b) = (State.loadRegs n s).withBystanders b := by
  rw [State.loadRegs_eq n (s.withBystanders b), State.loadRegs_eq n s,
    State.loadRegs_v_congr n (s' := s.withBystanders b) (s := s) rfl rfl rfl]
  rfl

/-- A key index that raises no condition is in range (R118). -/
theorem index_of_not_raises {i : Instr} {s : State} {x : Reg} (hi : i = .skpVx x ∨ i = .sknpVx x) (h : ∀ f, ¬ Raises i s f) :
    (s.getV x).toNat < 16 := by
  by_contra hx
  exact h .invalidKeyIndex ⟨x, by omega, hi⟩

/-- A plain instruction that raises no condition passes the bystanders through and does not depend on them. -/
theorem exec_withBystanders {i : Instr} {s : State} (hp : Plain i = true) (h : ∀ f, ¬ Raises i s f) (b : Bystanders) :
    exec i (s.withBystanders b) = onNext (·.withBystanders b) (exec i s) := by
  cases i with
  | cls | drw | call | ret => exact absurd hp Bool.false_ne_true
  | seVxKk x kk | sneVxKk x kk | seVxVy x y | sneVxVy x y => exact congrArg _ (s.skipIf_withBystanders b _)
  | skpVx x =>
    have hx := index_of_not_raises (.inl rfl) h
    rw [exec_skpVx_of_index hx, exec_skpVx_of_index (s := s.withBystanders b) hx]
    exact congrArg _ (s.skipIf_withBystanders b _)
  | sknpVx x =>
    have hx := index_of_not_raises (.inr rfl) h
    rw [exec_sknpVx_of_index hx, exec_sknpVx_of_index (s := s.withBystanders b) hx]
    exact congrArg _ (s.skipIf_withBystanders b _)
  | ldVxK x =>
    cases hk : leastKey s.key with
    | some k => rw [exec_ldVxK_of_key hk, exec_ldVxK_of_key (s := s.withBystanders b) hk]; rfl
    | none => rw [exec_ldVxK_of_no_key hk, exec_ldVxK_of_no_key (s := s.withBystanders b) hk]; rfl
  | ldMemVx x => exact congrArg _ (State.storeRegs_withBystanders _ s b)
  | ldVxMem x => exact congrArg _ (State.loadRegs_withBystanders _ s b)
  | _ => rfl

/-- A plain instruction that raises no condition leaves the bystanders alone, and so do its runs with other bystanders. -/
theorem exec_plain {i : Instr} {s : State} (hp : Plain i = true) (h : ∀ f, ¬ Raises i s f) :
    ∃ t, exec i s = .next t ∧ t.bystanders = s.bystanders ∧
      ∀ b, exec i (s.withBystanders b) = .next (t.withBystanders b) := by
  obtain ⟨t, ht⟩ := exec_total i s
  have hb := exec_withBystanders hp h
  rw [ht] at hb
  have hself : t = t.withBystanders s.bystanders := Host.Outcome.next.inj (ht.symm.trans (hb s.bystanders))
  have hkept := congrArg State.bystanders hself
  exact ⟨t, ht, hkept, hb⟩

theorem exec_drw (x y : Reg) (n : Nibble) (s : State) :
    exec (.drw x y n) s =
      .next { s.setV regF (flagByte (s.drawRows (s.getV x) (s.getV y) n.toNat (s.fb, false)).2) with
        fb := (s.drawRows (s.getV x) (s.getV y) n.toNat (s.fb, false)).1, dirty := true } := rfl

/-- The six ways an instruction can run. -/
inductive RunsAs (s : State) : Instr → Prop
  | raising {i : Instr} (f : Condition) (h : Raises i s f) : RunsAs s i
  | calling (nnn : Addr) (room : s.sp.val < 16) : RunsAs s (.call nnn)
  | returning (entry : 0 < s.sp.val) : RunsAs s .ret
  | clearing : RunsAs s .cls
  | drawing (x y : Reg) (n : Nibble) : RunsAs s (.drw x y n)
  | plainly {i : Instr} (hp : Plain i = true) (h : ∀ f, ¬ Raises i s f) : RunsAs s i

theorem runsAs (i : Instr) (s : State) : RunsAs s i := by
  by_cases hr : ∃ f, Raises i s f
  · obtain ⟨f, h⟩ := hr
    exact .raising f h
  · have h : ∀ f, ¬ Raises i s f := fun f hf => hr ⟨f, hf⟩
    cases i with
    | cls => exact .clearing
    | drw x y n => exact .drawing x y n
    | call nnn =>
      have hsp : s.sp.val ≠ 16 := fun e => h .stackOverflow ⟨e, nnn, rfl⟩
      exact .calling nnn (by omega)
    | ret =>
      have hsp : s.sp.val ≠ 0 := fun e => h .stackUnderflow ⟨e, rfl⟩
      exact .returning (by omega)
    | _ => exact .plainly rfl h

/-- An instruction either raises a condition, and then does the fault entry alone, or leaves the fault status and the tone as they are. -/
theorem exec_fault_status (i : Instr) (s : State) :
    (∃ f, Raises i s f ∧ exec i s = .next (s.raise f)) ∨
    ((∀ f, ¬ Raises i s f) ∧ ∃ t, exec i s = .next t ∧
      t.halted = s.halted ∧ t.faultCode = s.faultCode ∧ t.faultPc = s.faultPc ∧ t.tone = s.tone) := by
  by_cases hr : ∃ f, Raises i s f
  · exact .inl (hr.imp fun f h => ⟨h, exec_of_raises h⟩)
  refine .inr ⟨not_exists.1 hr, ?_⟩
  cases runsAs i s with
  | raising f h => exact absurd ⟨f, h⟩ hr
  | calling nnn room => exact ⟨_, exec_call_of_room nnn room, rfl, rfl, rfl, rfl⟩
  | returning entry => exact ⟨_, exec_ret_of_entry entry, rfl, rfl, rfl, rfl⟩
  | clearing => exact ⟨_, exec_cls s, rfl, rfl, rfl, rfl⟩
  | drawing x y n => exact ⟨_, exec_drw x y n s, rfl, rfl, rfl, rfl⟩
  | plainly hp h =>
    obtain ⟨t, ht, hb, -⟩ := exec_plain hp h
    exact ⟨t, ht, congrArg Bystanders.halted hb, congrArg Bystanders.faultCode hb, congrArg Bystanders.faultPc hb,
      congrArg Bystanders.tone hb⟩

/-- Settles O19: a fault entry overwrites both registers, the other special runs and the plain ones carry them along. -/
theorem noInstructionReadsTheFaultStatus : Obligations.NoInstructionReadsTheFaultStatus := by
  intro i s c p
  cases runsAs i s with
  | raising f h => exact ⟨_, _, exec_of_raises h, exec_of_raises (s := { s with faultCode := c, faultPc := p }) h, rfl⟩
  | calling nnn room =>
    exact ⟨_, _, exec_call_of_room nnn room, exec_call_of_room (s := { s with faultCode := c, faultPc := p }) nnn room, rfl⟩
  | returning entry =>
    exact ⟨_, _, exec_ret_of_entry entry, exec_ret_of_entry (s := { s with faultCode := c, faultPc := p }) entry, rfl⟩
  | clearing => exact ⟨_, _, exec_cls s, exec_cls _, rfl⟩
  | drawing x y n =>
    refine ⟨_, _, exec_drw x y n s, exec_drw x y n _, ?_⟩
    rw [State.drawRows_congr _ _ _ _ (s' := { s with faultCode := c, faultPc := p }) (s := s) rfl rfl]
    rfl
  | plainly hp h =>
    obtain ⟨t, ht, hb, hwith⟩ := exec_plain hp h
    refine ⟨t, _, ht, hwith { s.bystanders with faultCode := c, faultPc := p }, ?_⟩
    rw [← hb]
    rfl

/-! ### The framebuffer -/

/-- No instruction but DRW reads the framebuffer (R28). -/
theorem exec_withFramebuffer {i : Instr} (hi : ∀ x y n, i ≠ .drw x y n) (s : State) (f : Framebuffer) :
    exec i { s with fb := f } = onNext (fun t => { t with fb := if i = .cls then 0#2048 else f }) (exec i s) := by
  cases runsAs i s with
  | raising c h =>
    have hne : i ≠ .cls := by rintro rfl; cases c <;> simp [Raises] at h
    rw [exec_of_raises h, exec_of_raises (s := { s with fb := f }) h, if_neg hne]
    rfl
  | calling nnn room => rw [exec_call_of_room nnn room, exec_call_of_room (s := { s with fb := f }) nnn room]; rfl
  | returning entry => rw [exec_ret_of_entry entry, exec_ret_of_entry (s := { s with fb := f }) entry]; rfl
  | clearing => rfl
  | drawing x y n => exact absurd rfl (hi x y n)
  | plainly hp h =>
    have hne : i ≠ .cls := by rintro rfl; exact absurd hp (by decide)
    obtain ⟨t, ht, hb, hwith⟩ := exec_plain hp h
    have hf : exec i { s with fb := f } = .next (t.withBystanders { s.bystanders with fb := f }) :=
      hwith { s.bystanders with fb := f }
    rw [hf, ht, if_neg hne, ← hb]
    rfl

/-- An instruction that draws nothing keeps the framebuffer (R28). -/
theorem exec_fb_frame {i : Instr} (hi : drawsScreen i = false) (s : State) : ∃ t, exec i s = .next t ∧ t.fb = s.fb := by
  cases runsAs i s with
  | raising f h => exact ⟨_, exec_of_raises h, rfl⟩
  | calling nnn room => exact ⟨_, exec_call_of_room nnn room, rfl⟩
  | returning entry => exact ⟨_, exec_ret_of_entry entry, rfl⟩
  | clearing | drawing => exact absurd hi.symm Bool.false_ne_true
  | plainly hp h =>
    obtain ⟨t, ht, hb, -⟩ := exec_plain hp h
    exact ⟨t, ht, congrArg Bystanders.fb hb⟩

/-- Settles O51: a tick's first four steps keep the framebuffer, and a DRW over another one differs in it and in VF alone. -/
theorem onlyDrawReadsTheFramebuffer : Obligations.OnlyDrawReadsTheFramebuffer := by
  refine ⟨fun i s hi => exec_fb_frame hi s, fun inp s hi => ?_, fun i s f hi => exec_withFramebuffer hi s f,
    fun x y n s f => ⟨_, _, exec_drw x y n s, exec_drw x y n _, rfl, fun r hr => ?_⟩⟩
  · cases hs : s.halted with
    | true => exact ⟨_, tickWith_halted hs inp, rfl⟩
    | false =>
      rw [tickWith_running hs]
      exact exec_fb_frame hi _
  · exact (State.getV_setV { s with fb := f } regF _ r).trans
      ((if_neg hr).trans ((s.getV_setV regF _ r).trans (if_neg hr)).symm)

end Sys2Proof.Machine
end

section
/-! The tick as a whole (R73 to R80) and the entry into the halted state (R129 to R131). O7, O8, O9, O11, O13, O16, O17, O18, O20. -/
namespace Sys2Proof.Machine

/-! ### The steps of a tick, written out -/

theorem bne_eq_decide_ne (b c : Byte) : (b != c) = decide (b ≠ c) := by by_cases h : b = c <;> simp [h]

/-- What steps 1 to 4 and the fetch advance leave, field by field (R73 to R77). -/
theorem State.fetchAdvance_beginTick_eq (s : State) (inp : TickInput) :
    (s.beginTick inp).fetchAdvance = { s with
      key := inp.keys, rnd := inp.rnd, booting := false,
      render := if s.dirty = true then some s.fb else none, dirty := false,
      dt := if s.dt = 0#8 then 0#8 else s.dt - 1#8, st := if s.st = 0#8 then 0#8 else s.st - 1#8,
      tone := decide ((if s.st = 0#8 then 0#8 else s.st - 1#8) ≠ 0#8), pc := s.pc + 2#12 } := by
  rw [← bne_eq_decide_ne]
  rfl

/-- In execute the instruction's own address is the PC the tick began with (R83). -/
@[simp] theorem State.instrAddr_fetchAdvance_beginTick (s : State) (inp : TickInput) :
    (s.beginTick inp).fetchAdvance.instrAddr = s.pc := by
  rw [State.instrAddr_fetchAdvance, State.beginTick_pc]

/-- The instruction at an address depends on memory alone. -/
theorem instrAt_congr {s t : State} (h : t.mem = s.mem) (a : Addr) : t.instrAt a = s.instrAt a := by
  simp only [State.instrAt_eq, State.memRead, h]

/-- Settles O7: a running tick is the fetched instruction on the state that steps 1 to 4 and the fetch advance leave. -/
theorem tickRunsTheStepsInOrder : Obligations.TickRunsTheStepsInOrder := by
  refine fun inp s => ⟨fun h => tickWith_halted h inp, fun h => ?_⟩
  rw [tickWith_running h, State.fetchAdvance_beginTick_eq]
  rfl

theorem decodeWord_of_decode {hi lo : Byte} {i : Instr} {rest : List Byte} (h : decode [hi, lo] = .ok (i, rest)) :
    decodeWord (joinBytes hi lo) = i :=
  congrArg Prod.fst (Except.ok.inj h)

/-- Settles O8: a running step is a tick on the next input, of the instruction its two bytes decode to. -/
theorem stepRunsTheDecodedInstruction : Obligations.StepRunsTheDecodedInstruction := by
  intro s i h hdec _
  have hi : s.takeInput.instrAt s.takeInput.pc = i := decodeWord_of_decode hdec
  rw [step_running h, tickWith_running (s := s.takeInput) h, hi, State.fetchAdvance_beginTick_eq]
  rfl

/-- Settles O9: the next input is the head of the queue or the free values, and taking it drops the head. -/
theorem stepTakesOneInput : Obligations.StepTakesOneInput := by
  refine fun s => ⟨fun inp rest h hq => ?_, fun h hq => ?_, step_halted⟩
  · rw [step_running h, State.nextInput, State.takeInput, hq]
    rfl
  · rw [step_running h, State.nextInput, State.takeInput, hq]
    rfl

theorem tickWith_total (inp : TickInput) (s : State) : ∃ t, tickWith inp s = .next t := by
  cases h : s.halted with
  | true => exact ⟨_, tickWith_halted h inp⟩
  | false =>
    rw [tickWith_running h]
    exact exec_total _ _

theorem step_total (s : State) : ∃ t, step s = .next t := by
  cases h : s.halted with
  | true => exact ⟨_, step_halted h⟩
  | false =>
    rw [step_running h]
    exact tickWith_total _ _

/-- Settles O20: no instruction faults or is refused, and ticks and steps are runs of instructions. -/
theorem everyInstructionAndTickCompletes : Obligations.EveryInstructionAndTickCompletes :=
  ⟨exec_total, tickWith_total, step_total⟩

/-! ### Which ticks halt, and what they leave -/

/-- A running tick either enters the halted state, its instruction raising a condition on the state before the tick, or keeps the fault
status and leaves the tone as step 4 set it. -/
theorem tickWith_fault_status {s : State} (hs : s.halted = false) (inp : TickInput) :
    (∃ f, Raises (s.instrAt s.pc) s f ∧ tickWith inp s = .next ((s.beginTick inp).fetchAdvance.raise f)) ∨
    ((∀ f, ¬ Raises (s.instrAt s.pc) s f) ∧ ∃ t, tickWith inp s = .next t ∧
      t.halted = false ∧ t.faultCode = s.faultCode ∧ t.faultPc = s.faultPc ∧ t.tone = (countDown s.st != 0#8)) := by
  have hraises := raises_congr (s := s) (t := (s.beginTick inp).fetchAdvance) rfl rfl (s.instrAt s.pc)
  rw [tickWith_running hs]
  rcases exec_fault_status (s.instrAt s.pc) (s.beginTick inp).fetchAdvance with ⟨f, hf, ht⟩ | ⟨hno, t, ht, hh, hc, hp, htone⟩
  · exact .inl ⟨f, (hraises f).1 hf, ht⟩
  · exact .inr ⟨fun f hf => hno f ((hraises f).2 hf), t, ht, hh.trans hs, hc, hp, htone⟩

/-- Settles O16: a running tick halts exactly when its instruction raises a condition. -/
theorem onlyTheThreeConditionsHalt : Obligations.OnlyTheThreeConditionsHalt := by
  intro inp s hs
  rw [← exists_raises_iff]
  rcases tickWith_fault_status hs inp with ⟨f, hf, ht⟩ | ⟨hno, t, ht, hh, -⟩
  · exact ⟨_, ht, fun _ => ⟨f, hf⟩, fun _ => rfl⟩
  · exact ⟨t, ht, fun h => absurd (h.symm.trans hh) (by decide), fun ⟨f, hf⟩ => absurd hf (hno f)⟩

theorem Condition.code_ne_zero (f : Condition) : f.code ≠ 0#2 := by cases f <;> decide

/-- Settles O17: a tick that halts is the fault entry on the state that steps 1 to 4 and the fetch advance leave. -/
theorem faultEntryIsPrecise : Obligations.FaultEntryIsPrecise := by
  intro inp s t hs ht hh
  rcases tickWith_fault_status hs inp with ⟨f, -, hf⟩ | ⟨-, hkept⟩
  · obtain rfl : (s.beginTick inp).fetchAdvance.raise f = t := Host.Outcome.next.inj (hf.symm.trans ht)
    have hpc := s.instrAddr_fetchAdvance_beginTick inp
    refine ⟨hpc, f.code_ne_zero, ?_⟩
    rw [State.raise, hpc, State.fetchAdvance_beginTick_eq]
  · obtain ⟨hrun, -⟩ := holds_of_next hkept ht
    exact absurd (hh.symm.trans hrun) (by decide)

theorem countDown_ne_zero_iff (t : Byte) : (countDown t != 0#8) = true ↔ 2 ≤ t.toNat := by
  have h : (countDown t).toNat = 0 ↔ ¬ 2 ≤ t.toNat := by rw [toNat_countDown]; omega
  rw [bne_iff_ne, Ne, ← BitVec.toNat_inj, BitVec.toNat_zero, h, not_not]

/-- Settles O11: step 4 sets the tone by the ST that step 3 leaves, and only a fault entry changes it after that. -/
theorem toneFollowsTheSoundTimer : Obligations.ToneFollowsTheSoundTimer := by
  refine fun inp s => ⟨fun hs => ?_, fun hs => ⟨_, tickWith_halted hs inp, rfl⟩⟩
  rcases tickWith_fault_status hs inp with ⟨f, -, ht⟩ | ⟨-, t, ht, hh, -, -, htone⟩
  · exact ⟨_, ht, by simp⟩
  · exact ⟨t, ht, by rw [htone, countDown_ne_zero_iff, hh]; simp⟩

/-! ### Rendering -/

/-- Settles O13: drawing alone leaves DIRTY set after a tick, and the next tick renders exactly when it finds DIRTY set. -/
theorem framebufferChangeIsRenderedNextTick : Obligations.FramebufferChangeIsRenderedNextTick := by
  intro inp inp' s t hs ht hrun
  have hk := holds_of_next (tickWith_housekeeping hs inp) ht
  have hdirty : t.dirty = drawsScreen (s.instrAt s.pc) := (congrArg Housekeeping.dirty hk).trans (Bool.or_false _)
  rw [← hdirty]
  exact tickWith_render hrun inp'

/-! ### The halted state -/

/-- A tick or a load cycle of a halted block past its boot phase does at most deassert the render output (R80, R142). -/
theorem apply_of_halted {s : State} {e : Event} (hh : s.halted = true) (hb : s.booting = false) (he : e ≠ .rst) :
    ∃ t, e.apply s = .next t ∧ { t with render := none } = { s with render := none } := by
  cases e with
  | tick inp => exact ⟨_, tickWith_halted hh inp, rfl⟩
  | rst => exact absurd rfl he
  | load we addr data => exact ⟨s, by rw [Event.apply, State.loadPort_eq, if_neg (by simp [hb])], rfl⟩

theorem runEvents_cons {e : Event} {s t : State} (h : e.apply s = .next t) (es : List Event) :
    runEvents (e :: es) s = runEvents es t := by rw [runEvents, h]

/-- Over any ticks and load cycles a halted block past its boot phase keeps all but the render output (R131). -/
theorem runEvents_of_halted {es : List Event} {s : State} (hh : s.halted = true) (hb : s.booting = false)
    (hes : ∀ e ∈ es, e ≠ .rst) : ∃ t, runEvents es s = .next t ∧ { t with render := none } = { s with render := none } := by
  induction es generalizing s with
  | nil => exact ⟨s, rfl, rfl⟩
  | cons e es ih =>
    obtain ⟨u, hu, hus⟩ := apply_of_halted hh hb (hes e List.mem_cons_self)
    have huh : u.halted = true := (congrArg State.halted hus).trans hh
    have hub : u.booting = false := (congrArg State.booting hus).trans hb
    obtain ⟨t, ht, htu⟩ := ih huh hub fun e' he' => hes e' (List.mem_cons_of_mem _ he')
    exact ⟨t, (runEvents_cons hu es).trans ht, htu.trans hus⟩

/-- Settles O18: ticks and load cycles keep the halted block, and `rst` is the reset state with the inputs to come. -/
theorem onlyResetLeavesTheHaltedState : Obligations.OnlyResetLeavesTheHaltedState :=
  ⟨fun _ _ => runEvents_of_halted, fun _ => ⟨_, rfl, rfl, rfl⟩⟩

end Sys2Proof.Machine
end

section
/-! Which instruction writes which piece of state (R19 to R29, R135), and the random byte of a tick (R106). O32, O49 and O50. -/
namespace Sys2Proof.Machine

/-! ### V registers, PC, I and memory -/

/-- Which of V, PC, I and memory may differ after an instruction (R19, R20, R43, R77). -/
structure CoreFrame (i : Instr) (s t : State) : Prop where
  regs : ∀ r, ¬ writesReg i r → t.getV r = s.getV r
  pc : writesPc i = false → t.pc = s.pc
  index : (∀ nnn x, i ≠ .ldINnn nnn ∧ i ≠ .addIVx x ∧ i ≠ .ldFVx x) → t.i = s.i
  mem : (∀ x, i ≠ .ldBVx x ∧ i ≠ .ldMemVx x) → t.mem = s.mem

theorem CoreFrame.of_eq {i : Instr} {s t : State} (hv : t.v = s.v) (hpc : t.pc = s.pc) (hi : t.i = s.i) (hm : t.mem = s.mem) :
    CoreFrame i s t :=
  ⟨fun r _ => by rw [State.getV, State.getV, hv], fun _ => hpc, fun _ => hi, fun _ => hm⟩

theorem CoreFrame.of_pc {i : Instr} {s t : State} (h : writesPc i = true) (hv : t.v = s.v) (hi : t.i = s.i) (hm : t.mem = s.mem) :
    CoreFrame i s t :=
  ⟨fun r _ => by rw [State.getV, State.getV, hv], fun hno => absurd (hno.symm.trans h) (by decide), fun _ => hi, fun _ => hm⟩

theorem CoreFrame.of_skipIf {i : Instr} (h : writesPc i = true) (s : State) (c : Bool) : CoreFrame i s (s.skipIf c) := by
  rw [s.skipIf_eq]
  exact .of_pc h rfl rfl rfl

theorem CoreFrame.of_setV {i : Instr} {x : Reg} (h : writesReg i x) (s : State) (b : Byte) : CoreFrame i s (s.setV x b) :=
  ⟨fun r hr => by rw [State.getV_setV, if_neg (fun e : r = x => hr (e ▸ h))], fun _ => rfl, fun _ => rfl, fun _ => rfl⟩

theorem CoreFrame.of_setResultFlag {i : Instr} {x : Reg} (h : ∀ r, r = x ∨ r = regF → writesReg i r) (s : State) (b : Byte)
    (c : Bool) : CoreFrame i s (s.setResultFlag x b c) :=
  ⟨fun r hr => by rw [State.getV_setResultFlag, if_neg fun e => hr (h r (.inr e)), if_neg fun e => hr (h r (.inl e))],
    fun _ => rfl, fun _ => rfl, fun _ => rfl⟩

theorem exec_addVxVy (x y : Reg) (s : State) :
    exec (.addVxVy x y) s = .next (s.setResultFlag x (s.getV x + s.getV y) (carry (s.getV x) (s.getV y))) := rfl

theorem exec_subVxVy (x y : Reg) (s : State) :
    exec (.subVxVy x y) s = .next (s.setResultFlag x (s.getV x - s.getV y) (greater (s.getV x) (s.getV y))) := rfl

theorem exec_subnVxVy (x y : Reg) (s : State) :
    exec (.subnVxVy x y) s = .next (s.setResultFlag x (s.getV y - s.getV x) (greater (s.getV y) (s.getV x))) := rfl

theorem exec_shrVx (x y : Reg) (s : State) :
    exec (.shrVx x y) s = .next (s.setResultFlag x (s.getV x >>> 1) (lowBit (s.getV x))) := rfl

theorem exec_shlVx (x y : Reg) (s : State) :
    exec (.shlVx x y) s = .next (s.setResultFlag x (s.getV x <<< 1) (highBit (s.getV x))) := rfl

theorem exec_rndVxKk (x : Reg) (kk : Byte) (s : State) : exec (.rndVxKk x kk) s = .next (s.setV x (s.rnd &&& kk)) := rfl

theorem exec_ldINnn (nnn : Addr) (s : State) : exec (.ldINnn nnn) s = .next { s with i := nnn } := rfl

theorem exec_addIVx (x : Reg) (s : State) : exec (.addIVx x) s = .next { s with i := s.i + s.regAddr x } := rfl

theorem exec_ldFVx (x : Reg) (s : State) : exec (.ldFVx x) s = .next { s with i := glyphAddr (s.getV x) } := rfl

/-- Every instruction keeps to its frame of V, PC, I and memory: each of the branches of each instruction is one write, or none. -/
theorem exec_coreFrame (i : Instr) (s : State) : ∃ t, exec i s = .next t ∧ CoreFrame i s t := by
  cases i with
  | cls => exact ⟨_, exec_cls s, .of_eq rfl rfl rfl rfl⟩
  | nop w => exact ⟨_, exec_nop w s, .of_eq rfl rfl rfl rfl⟩
  | ldDtVx x => exact ⟨_, exec_ldDtVx x s, .of_eq rfl rfl rfl rfl⟩
  | ldStVx x => exact ⟨_, exec_ldStVx x s, .of_eq rfl rfl rfl rfl⟩
  | jp nnn => exact ⟨_, exec_jp nnn s, .of_pc rfl rfl rfl rfl⟩
  | jpV0Nnn nnn => exact ⟨_, exec_jpV0Nnn nnn s, .of_pc rfl rfl rfl rfl⟩
  | call nnn =>
    by_cases h : s.sp.val < 16
    · exact ⟨_, exec_call_of_room nnn h, .of_pc rfl rfl rfl rfl⟩
    · exact ⟨_, exec_call_of_full nnn h, .of_pc rfl rfl rfl rfl⟩
  | ret =>
    by_cases h : 0 < s.sp.val
    · exact ⟨_, exec_ret_of_entry h, .of_pc rfl rfl rfl rfl⟩
    · exact ⟨_, exec_ret_of_empty h, .of_pc rfl rfl rfl rfl⟩
  | seVxKk x kk | sneVxKk x kk | seVxVy x y | sneVxVy x y => exact ⟨_, rfl, .of_skipIf rfl s _⟩
  | skpVx x =>
    rcases Nat.lt_or_ge (s.getV x).toNat 16 with h | h
    · exact ⟨_, exec_skpVx_of_index h, .of_skipIf rfl s _⟩
    · exact ⟨_, exec_skpVx_of_invalid h, .of_pc rfl rfl rfl rfl⟩
  | sknpVx x =>
    rcases Nat.lt_or_ge (s.getV x).toNat 16 with h | h
    · exact ⟨_, exec_sknpVx_of_index h, .of_skipIf rfl s _⟩
    · exact ⟨_, exec_sknpVx_of_invalid h, .of_pc rfl rfl rfl rfl⟩
  | ldVxKk x kk => exact ⟨_, exec_ldVxKk x kk s, .of_setV rfl s _⟩
  | addVxKk x kk => exact ⟨_, exec_addVxKk x kk s, .of_setV rfl s _⟩
  | ldVxVy x y => exact ⟨_, exec_ldVxVy x y s, .of_setV rfl s _⟩
  | orVxVy x y => exact ⟨_, exec_orVxVy x y s, .of_setV rfl s _⟩
  | andVxVy x y => exact ⟨_, exec_andVxVy x y s, .of_setV rfl s _⟩
  | xorVxVy x y => exact ⟨_, exec_xorVxVy x y s, .of_setV rfl s _⟩
  | rndVxKk x kk => exact ⟨_, exec_rndVxKk x kk s, .of_setV rfl s _⟩
  | ldVxDt x => exact ⟨_, exec_ldVxDt x s, .of_setV rfl s _⟩
  | ldVxK x =>
    cases h : leastKey s.key with
    | some k => exact ⟨_, exec_ldVxK_of_key h, .of_setV rfl s k⟩
    | none => exact ⟨_, exec_ldVxK_of_no_key h, .of_pc rfl rfl rfl rfl⟩
  | addVxVy x y => exact ⟨_, exec_addVxVy x y s, .of_setResultFlag (fun _ => id) s _ _⟩
  | subVxVy x y => exact ⟨_, exec_subVxVy x y s, .of_setResultFlag (fun _ => id) s _ _⟩
  | subnVxVy x y => exact ⟨_, exec_subnVxVy x y s, .of_setResultFlag (fun _ => id) s _ _⟩
  | shrVx x y => exact ⟨_, exec_shrVx x y s, .of_setResultFlag (fun _ => id) s _ _⟩
  | shlVx x y => exact ⟨_, exec_shlVx x y s, .of_setResultFlag (fun _ => id) s _ _⟩
  | ldINnn nnn => exact ⟨_, exec_ldINnn nnn s, fun _ _ => rfl, fun _ => rfl, fun h => absurd rfl (h nnn 0).1, fun _ => rfl⟩
  | addIVx x => exact ⟨_, exec_addIVx x s, fun _ _ => rfl, fun _ => rfl, fun h => absurd rfl (h 0 x).2.1, fun _ => rfl⟩
  | ldFVx x => exact ⟨_, exec_ldFVx x s, fun _ _ => rfl, fun _ => rfl, fun h => absurd rfl (h 0 x).2.2, fun _ => rfl⟩
  | ldBVx x =>
    obtain ⟨m, h⟩ : ∃ m, exec (.ldBVx x) s = .next { s with mem := m } := ⟨_, exec_ldBVx x s⟩
    exact ⟨_, h, fun _ _ => rfl, fun _ => rfl, fun _ => rfl, fun h => absurd rfl (h x).1⟩
  | ldMemVx x =>
    refine ⟨_, exec_ldMemVx x s, fun r _ => State.getV_storeRegs _ s r, fun _ => ?_, fun _ => ?_, fun h => absurd rfl (h x).2⟩
    · rw [State.storeRegs_eq]
    · rw [State.storeRegs_eq]
  | ldVxMem x =>
    obtain ⟨heq, hv, -⟩ := s.onlyRegs_loadRegs x.isLt
    refine ⟨_, exec_ldVxMem x s, hv, fun _ => ?_, fun _ => ?_, fun _ => ?_⟩ <;> rw [heq]
  | drw x y n =>
    obtain ⟨b, fb, h⟩ : ∃ b fb, exec (.drw x y n) s = .next { s.setV regF b with fb := fb, dirty := true } :=
      ⟨_, _, exec_drw x y n s⟩
    exact ⟨_, h, fun r hr => (s.getV_setV regF b r).trans (if_neg hr), fun _ => rfl, fun _ => rfl, fun _ => rfl⟩

/-! ### The stack -/

/-- No instruction but CALL and RET touches the stack (R24). -/
theorem exec_stack_frame {i : Instr} (hi : ∀ nnn, i ≠ .call nnn ∧ i ≠ .ret) (s : State) :
    ∃ t, exec i s = .next t ∧ t.sp = s.sp ∧ t.stack = s.stack := by
  cases runsAs i s with
  | raising f h => exact ⟨_, exec_of_raises h, rfl, rfl⟩
  | calling nnn room => exact absurd rfl (hi nnn).1
  | returning entry => exact absurd rfl (hi 0).2
  | clearing => exact ⟨_, exec_cls s, rfl, rfl⟩
  | drawing x y n => exact ⟨_, exec_drw x y n s, rfl, rfl⟩
  | plainly hp h =>
    obtain ⟨t, ht, hb, -⟩ := exec_plain hp h
    exact ⟨t, ht, congrArg Bystanders.sp hb, congrArg Bystanders.stack hb⟩

theorem not_raises_of_ne {i : Instr} (hi : ∀ nnn x, i ≠ .call nnn ∧ i ≠ .ret ∧ i ≠ .skpVx x ∧ i ≠ .sknpVx x) (s : State)
    (f : Condition) : ¬ Raises i s f := by
  cases f with
  | stackOverflow => exact fun ⟨_, nnn, h⟩ => (hi nnn 0).1 h
  | stackUnderflow => exact fun ⟨_, h⟩ => (hi 0 0).2.1 h
  | invalidKeyIndex => exact fun ⟨x, _, h⟩ => h.elim (hi 0 x).2.2.1 (hi 0 x).2.2.2

/-- Settles O49: the frames of V, PC, I and memory, of the timers, of the stack, of the framebuffer, of the fault status and of the
housekeeping fields, put together. -/
theorem eachPieceOfStateHasItsWriters : Obligations.EachPieceOfStateHasItsWriters := by
  intro i s
  obtain ⟨t, ht, hcore⟩ := exec_coreFrame i s
  have hk := holds_of_next (exec_housekeeping i s) ht
  obtain ⟨hdt, hst⟩ := holds_of_next (exec_timers_frame i s) ht
  refine ⟨t, ht, hcore.regs, hcore.pc, congrArg Housekeeping.dirty hk, hcore.index, fun h => holds_of_next (exec_stack_frame h s) ht,
    hdt, hst, hcore.mem, fun h => holds_of_next (exec_fb_frame h s) ht, fun h => ?_, congrArg Housekeeping.key hk,
    congrArg Housekeeping.rnd hk,
    congrArg Housekeeping.render hk, congrArg Housekeeping.booting hk, congrArg Housekeeping.inputs hk,
    congrArg Housekeeping.polls hk⟩
  rcases exec_fault_status i s with ⟨f, hf, -⟩ | ⟨-, hkept⟩
  · exact absurd hf (not_raises_of_ne h s f)
  · exact holds_of_next hkept ht

/-- Settles O50: an instruction that changes VF writes it, by the table of the registers each instruction writes (R19). -/
theorem vfChangesOnlyAsFlagOrDestination : Obligations.VfChangesOnlyAsFlagOrDestination := by
  intro i s
  obtain ⟨t, ht, hcore⟩ := exec_coreFrame i s
  refine ⟨t, ht, fun hne => ?_⟩
  have hw : writesReg i 0xF#4 := by
    by_contra h
    exact hne (hcore.regs _ h)
  cases i with
  | addVxVy x y | subVxVy x y | subnVxVy x y | shrVx x y | shlVx x y => exact .inl ⟨x, y, by simp⟩
  | drw x y n => exact .inr (.inl ⟨x, y, n, rfl⟩)
  | ldVxKk x kk | addVxKk x kk | rndVxKk x kk =>
    obtain rfl : 0xF#4 = x := hw
    exact .inr (.inr (.inl ⟨kk, by simp⟩))
  | ldVxVy x y | orVxVy x y | andVxVy x y | xorVxVy x y =>
    obtain rfl : 0xF#4 = x := hw
    exact .inr (.inr (.inr (.inl ⟨y, by simp⟩)))
  | ldVxDt x | ldVxK x =>
    obtain rfl : 0xF#4 = x := hw
    simp
  | ldVxMem x =>
    have hx : 15 ≤ x.toNat := hw
    obtain rfl : x = 0xF#4 := by bv_omega
    simp
  | _ => exact False.elim hw

/-! ### The random byte -/

/-- No instruction but RND reads the random byte (R31). -/
theorem exec_withRnd {i : Instr} (hi : ∀ x kk, i ≠ .rndVxKk x kk) (s : State) (r : Byte) :
    exec i { s with rnd := r } = onNext (fun t => { t with rnd := r }) (exec i s) := by
  obtain ⟨t, ht, hk⟩ := exec_housekeeping i s
  have h := exec_withHousekeeping i s { s.housekeeping with rnd := r } (fun _ => rfl) (fun ⟨x, kk, e⟩ => absurd e (hi x kk))
  have hd : Housekeeping.after { s.housekeeping with rnd := r } i = { t.housekeeping with rnd := r } := by
    rw [hk]; rfl
  rw [ht, hd] at h
  rw [ht]
  exact h

/-- Settles O32: RND is one write of V[x], of the masked byte on the input, which step 1 of its tick put there. -/
theorem rndMasksTheDrawnByte : Obligations.RndMasksTheDrawnByte := by
  refine ⟨fun x kk s => exec_writes_only_of_setV (exec_rndVxKk x kk s), fun inp s x kk hs hi => ?_,
    fun i s r hi => exec_withRnd hi s r⟩
  obtain ⟨t, ht, hx, -⟩ := exec_writes_only_of_setV (exec_rndVxKk x kk (s.beginTick inp).fetchAdvance)
  exact ⟨t, by rw [tickWith_running hs, hi, ht], hx⟩

end Sys2Proof.Machine
end

section
/-! The unoccupied stack entries (R24): no instruction and no tick observes them. O52. -/
namespace Sys2Proof.Machine

/-- Entries below SP + 1 agree after a push when the entries below SP did. -/
theorem push_agrees {sp : Nat} (hsp : sp < 16) {σ τ : Vector Addr 16} (a : Addr)
    (h : ∀ k (hk : k < 16), k < sp → τ[k] = σ[k]) :
    ∀ k (hk : k < 16), k < sp + 1 → (τ.set sp a)[k] = (σ.set sp a)[k] := by
  intro k hk hlt
  by_cases e : sp = k
  · subst e; simp
  · rw [Vector.getElem_set_ne _ _ e, Vector.getElem_set_ne _ _ e, h k hk (by omega)]

/-- An instruction on two states that differ in unoccupied stack entries alone leaves two such states, and the entries above SP as they
were. -/
theorem exec_freeStack (i : Instr) {s s' : State} (hss : SameButFreeStack s s') :
    ∃ t t', exec i s = .next t ∧ exec i s' = .next t' ∧ SameButFreeStack t t' ∧
      ∀ k (h : k < 16), s.sp.val < k → t.stack[k] = s.stack[k] := by
  obtain ⟨heq, hagree⟩ := hss
  generalize s'.stack = σ at heq hagree
  subst heq
  cases runsAs i s with
  | raising f h =>
    exact ⟨_, _, exec_of_raises h, exec_of_raises (s := { s with stack := σ }) h, ⟨rfl, hagree⟩, fun _ _ _ => rfl⟩
  | calling nnn room =>
    refine ⟨_, _, exec_call_of_room nnn room, exec_call_of_room (s := { s with stack := σ }) nnn room,
      ⟨rfl, push_agrees room s.pc hagree⟩, fun k hk hlt => ?_⟩
    exact Vector.getElem_set_ne room hk (Nat.ne_of_lt hlt)
  | returning entry =>
    have htop : ({ s with stack := σ } : State).top entry = s.top entry :=
      hagree _ _ (Nat.sub_lt entry Nat.one_pos)
    refine ⟨_, _, exec_ret_of_entry entry, exec_ret_of_entry (s := { s with stack := σ }) entry, ⟨?_, fun k hk hlt => ?_⟩,
      fun _ _ _ => rfl⟩
    · rw [State.pop, State.pop, htop]
    · exact hagree k hk (Nat.lt_of_lt_of_le hlt (Nat.sub_le _ _))
  | clearing => exact ⟨_, _, exec_cls s, exec_cls _, ⟨rfl, hagree⟩, fun _ _ _ => rfl⟩
  | drawing x y n =>
    refine ⟨_, _, exec_drw x y n s, exec_drw x y n _, ⟨?_, hagree⟩, fun _ _ _ => rfl⟩
    rw [State.drawRows_congr _ _ _ _ (s' := { s with stack := σ }) (s := s) rfl rfl]
    rfl
  | plainly hp h =>
    obtain ⟨t, ht, hb, hwith⟩ := exec_plain hp h
    have hsp : t.sp = s.sp := congrArg Bystanders.sp hb
    have hstack : t.stack = s.stack := congrArg Bystanders.stack hb
    refine ⟨t, _, ht, hwith { s.bystanders with stack := σ }, ⟨?_, fun k hk hlt => ?_⟩, fun k hk _ => by rw [hstack]⟩
    · rw [← hb]
      rfl
    · rw [hsp] at hlt
      exact (hagree k hk hlt).trans (by rw [hstack])

/-- Settles O52: a halted tick and the first four steps of a running one pass the stack through, and the instruction does not observe its
unoccupied entries. -/
theorem freeStackEntriesAreUnobservable : Obligations.FreeStackEntriesAreUnobservable := by
  intro inp s s' hss
  obtain ⟨heq, hagree⟩ := hss
  generalize s'.stack = σ at heq hagree
  subst heq
  rcases Bool.eq_false_or_eq_true s.halted with hs | hs
  · exact ⟨_, _, tickWith_halted hs inp, tickWith_halted (s := { s with stack := σ }) hs inp, ⟨rfl, hagree⟩, fun _ _ _ => rfl⟩
  · rw [tickWith_running hs, tickWith_running (s := { s with stack := σ }) hs]
    exact exec_freeStack (s := (s.beginTick inp).fetchAdvance) _ ⟨rfl, hagree⟩

end Sys2Proof.Machine
end

section
/-! The invariant of the block (Safety.lean): it holds at reset, and every tick, reset and load cycle keeps it. O57, O58 and O59. -/
namespace Sys2Proof.Machine

/-- Settles O57: at reset nothing is written, nothing is halted, and only the boot phase is open. -/
theorem invariantHoldsAtReset : Obligations.InvariantHoldsAtReset where
  canonical := Memory.nil_wf
  running := fun _ => ⟨rfl, rfl⟩
  faulted := fun h => absurd h (by decide)
  stopped := fun h => absurd h (by decide)
  boot := fun _ => ⟨rfl, fun _ _ => rfl⟩

/-- Every instruction keeps the canonical form of memory (R46). -/
theorem exec_wf (i : Instr) {s : State} (h : s.mem.wf) : ∃ t, exec i s = .next t ∧ t.mem.wf := by
  by_cases hi : ∀ x, i ≠ .ldBVx x ∧ i ≠ .ldMemVx x
  · obtain ⟨t, ht, hcore⟩ := exec_coreFrame i s
    exact ⟨t, ht, (hcore.mem hi).symm ▸ h⟩
  · simp only [not_forall, not_and_or, not_not] at hi
    obtain ⟨x, rfl | rfl⟩ := hi
    · exact ⟨_, exec_ldBVx x s, State.memWrite_wf _ _ (State.memWrite_wf _ _ (State.memWrite_wf _ _ h))⟩
    · exact ⟨_, exec_ldMemVx x s, State.storeRegs_wf _ h⟩

theorem State.Inv.haltedTick {s : State} (h : s.Inv) (hs : s.halted = true) : s.haltedTick.Inv where
  canonical := h.canonical
  running := h.running
  faulted := h.faulted
  stopped := h.stopped
  boot := fun hb => absurd (hb.symm.trans (h.stopped hs).2.2) (by decide)

/-- The invariant does not speak of the environment's inputs. -/
theorem State.Inv.withInputs {s : State} (h : s.Inv) (inputs : List TickInput) (polls : Nat) :
    State.Inv { s with inputs := inputs, polls := polls } where
  canonical := h.canonical
  running := h.running
  faulted := h.faulted
  stopped := h.stopped
  boot := h.boot

/-- The fault entry of a tick from a state with the invariant leaves one: the condition its instruction raises is recorded, and its cause
stays in place (R129, R130). -/
theorem State.Inv.faultEntry {s : State} (h : s.Inv) (inp : TickInput) {f : Condition} (hf : Raises (s.instrAt s.pc) s f) :
    ((s.beginTick inp).fetchAdvance.raise f).Inv := by
  have hmem : ((s.beginTick inp).fetchAdvance.raise f).mem = s.mem := by simp
  have hfaultPc : ((s.beginTick inp).fetchAdvance.raise f).faultPc = s.pc := by simp
  refine { canonical := ?_, running := fun hno => ?_, faulted := fun _ => ⟨f, State.raise_faultCode _ f, ?_⟩,
           stopped := fun _ => ?_, boot := fun hb => ?_ }
  · rw [hmem]
    exact h.canonical
  · simp at hno
  · rw [causeHolds_iff, hfaultPc, instrAt_congr hmem, raises_congr (s := s) (by simp) (by simp)]
    exact hf
  · simp
  · simp at hb

/-- Every tick keeps the invariant: one that halts is a fault entry, and the others keep the fault status and close the boot phase. -/
theorem tickWith_inv {s : State} (h : s.Inv) (inp : TickInput) : ∃ t, tickWith inp s = .next t ∧ t.Inv := by
  cases hs : s.halted with
  | true => exact ⟨_, tickWith_halted hs inp, h.haltedTick hs⟩
  | false =>
    rcases tickWith_fault_status hs inp with ⟨f, hf, ht⟩ | ⟨-, t, ht, hh, hcode, hpc, -⟩
    · exact ⟨_, ht, h.faultEntry inp hf⟩
    · have hwf : t.mem.wf :=
        holds_of_next (exec_wf (s.instrAt s.pc) (s := (s.beginTick inp).fetchAdvance) (by simpa using h.canonical))
          ((tickWith_running hs inp).symm.trans ht)
      have hboot : t.booting = false := congrArg Housekeeping.booting (holds_of_next (tickWith_housekeeping hs inp) ht)
      obtain ⟨hcode0, hpc0⟩ := h.running hs
      exact ⟨t, ht, hwf, fun _ => ⟨hcode.trans hcode0, hpc.trans hpc0⟩, fun hno => absurd (hno.symm.trans hh) (by decide),
        fun hno => absurd (hno.symm.trans hh) (by decide), fun hb => absurd (hb.symm.trans hboot) (by decide)⟩

/-- Settles O58: a step is a tick, and taking its input keeps the invariant. -/
theorem everyStepKeepsTheInvariant : Obligations.EveryStepKeepsTheInvariant := by
  intro s h
  cases hs : s.halted with
  | true => exact ⟨_, step_halted hs, h.haltedTick hs⟩
  | false =>
    rw [step_running hs]
    exact tickWith_inv (h.withInputs _ _) _

/-- A load cycle keeps the invariant: it writes in the boot phase alone, in which nothing is halted, and nothing below 0x200. -/
theorem State.Inv.loadPort {s : State} (h : s.Inv) (we : Bool) (addr : Addr) (data : Byte) : (s.loadPort we addr data).Inv := by
  rw [State.loadPort_eq]
  split_ifs with hw
  · obtain ⟨hb, -, haddr⟩ := hw
    obtain ⟨hreset, hlow⟩ := h.boot hb
    refine { canonical := State.memWrite_wf _ _ h.canonical, running := ?_, faulted := fun hh => ?_, stopped := ?_,
             boot := fun _ => ⟨?_, fun a ha => ?_⟩ }
    · exact h.running
    · exact absurd (hb.symm.trans (h.stopped hh).2.2) (by decide)
    · exact h.stopped
    · exact hreset
    · have hne : a ≠ addr := fun e => Nat.not_lt.2 haddr (e ▸ ha)
      rw [State.memRead_memWrite, if_neg hne, hlow a ha]
  · exact h

theorem Event.apply_inv (e : Event) {s : State} (h : s.Inv) : ∃ t, e.apply s = .next t ∧ t.Inv := by
  cases e with
  | tick inp => exact tickWith_inv h inp
  | rst => exact ⟨_, rfl, invariantHoldsAtReset.withInputs s.inputs s.polls⟩
  | load we addr data => exact ⟨_, rfl, h.loadPort we addr data⟩

/-- Settles O59, by induction on the events. -/
theorem everyRunOfEventsKeepsTheInvariant : Obligations.EveryRunOfEventsKeepsTheInvariant := by
  intro es
  induction es with
  | nil => exact fun s h => ⟨s, rfl, h⟩
  | cons e es ih =>
    intro s h
    obtain ⟨u, hu, hinv⟩ := e.apply_inv h
    obtain ⟨t, ht, htinv⟩ := ih u hinv
    exact ⟨t, (runEvents_cons hu es).trans ht, htinv⟩

end Sys2Proof.Machine
end

section
/-! Memory as data, the ROM image and the load port, and the reset values (R34, R41, R46 to R49, R143). O39, O53, O54, O55 and O56. -/
namespace Sys2Proof.Machine

/-! ### The canonical form determines the list -/

theorem Memory.read_eq_unlisted {m : Memory} {a : Nat} (h : ∀ c ∈ m, c.1 ≠ a) : m.read a = unlistedByte a := by
  induction m with
  | nil => rfl
  | cons c m ih =>
    rw [Memory.read_cons, if_neg (h c List.mem_cons_self), ih fun d hd => h d (List.mem_cons_of_mem _ hd)]

/-- With addresses that rise, a listed cell is what its address reads as. -/
theorem Memory.read_of_mem {m : Memory} (h : m.Pairwise fun c d => c.1 < d.1) {c : Host.Cell} (hc : c ∈ m) : m.read c.1 = c.2 := by
  induction m with
  | nil => exact absurd hc List.not_mem_nil
  | cons d m ih =>
    obtain ⟨hd, hm⟩ := List.pairwise_cons.1 h
    rw [Memory.read_cons]
    rcases List.mem_cons.1 hc with rfl | hc
    · exact if_pos rfl
    · rw [if_neg (Nat.ne_of_lt (hd c hc)), ih hm hc]

/-- The cells of a canonical memory are the addresses whose byte differs from their unlisted one, with these bytes. -/
theorem Memory.mem_iff_of_wf {m : Memory} (h : m.wf) (c : Host.Cell) :
    c ∈ m ↔ c.1 < 4096 ∧ m.read c.1 = c.2 ∧ c.2 ≠ unlistedByte c.1 := by
  obtain ⟨hrising, hcells⟩ := h
  constructor
  · intro hc
    obtain ⟨hlt, hne⟩ := hcells c hc
    exact ⟨hlt, Memory.read_of_mem hrising hc, hne⟩
  · rintro ⟨-, hread, hne⟩
    by_contra hc
    refine hne (hread.symm.trans (Memory.read_eq_unlisted fun d hd hda => hc ?_))
    have hdb : d.2 = c.2 := by rw [← Memory.read_of_mem hrising hd, hda, hread]
    exact Prod.ext hda hdb ▸ hd

/-- Settles O39: canonical memories that read alike have the same cells, and cells at rising addresses have one order. -/
theorem canonicalMemoriesAreExtensional : Obligations.CanonicalMemoriesAreExtensional := by
  intro m m' hm hm' hread
  have hcells : ∀ c, c ∈ m ↔ c ∈ m' := by
    intro c
    rw [Memory.mem_iff_of_wf hm, Memory.mem_iff_of_wf hm']
    exact and_congr_right fun hlt => by rw [hread c.1 hlt]
  have hirrefl {c d : Host.Cell} (h : c.1 < d.1) : c ≠ d := fun e => Nat.lt_irrefl _ (e ▸ h)
  have hperm : m.Perm m' := (List.perm_ext_iff_of_nodup (hm.1.imp hirrefl) (hm'.1.imp hirrefl)).2 hcells
  exact hperm.eq_of_pairwise (fun c d _ _ h h' => absurd h' (Nat.lt_asymm h)) hm.1 hm'.1

/-! ### The ROM image -/

/-- An image loads in the boot phase as memory writes alone: from `a`, at or above 0x200, upwards, as far as memory goes. -/
theorem State.loadBytes_spec (bs : List Byte) {s : State} (hb : s.booting = true) {a : Nat} (ha : Config.romBase ≤ a) :
    s.loadBytes a bs = { s with mem := (s.loadBytes a bs).mem } ∧
    ∀ x : Addr, (s.loadBytes a bs).memRead x =
      if a ≤ x.toNat ∧ x.toNat - a < bs.length then bs.getD (x.toNat - a) 0#8 else s.memRead x := by
  induction bs generalizing s a with
  | nil => exact ⟨rfl, fun x => by simp [State.loadBytes]⟩
  | cons b bs ih =>
    rw [State.loadBytes]
    split_ifs with hlt
    · have hto : (BitVec.ofNat 12 a).toNat = a := 
        (BitVec.toNat_ofNat a 12).trans (Nat.mod_eq_of_lt hlt)
      rw [State.loadPort_eq, if_pos ⟨hb, rfl, hto.symm ▸ ha⟩]
      obtain ⟨hmem, hread⟩ := ih (s := s.memWrite (BitVec.ofNat 12 a) b) (a := a + 1) hb (Nat.le_succ_of_le ha)
      refine ⟨hmem, fun x => ?_⟩
      have hx : x = BitVec.ofNat 12 a ↔ x.toNat = a := by rw [← BitVec.toNat_inj, hto]
      rw [hread, State.memRead_memWrite, List.length_cons]
      rcases Nat.lt_trichotomy x.toNat a with hlt' | heq | hgt
      · rw [if_neg (by omega), if_neg (by rw [hx]; omega), if_neg (by omega)]
      · rw [if_neg (by omega), if_pos (hx.2 heq), if_pos (by omega), heq, Nat.sub_self, List.getD_cons_zero]
      · have hsucc : x.toNat - a = x.toNat - (a + 1) + 1 := by omega
        have hin : a + 1 ≤ x.toNat ∧ x.toNat - (a + 1) < bs.length ↔ a ≤ x.toNat ∧ x.toNat - a < bs.length + 1 := by omega
        rw [if_congr hin rfl (if_neg (by rw [hx]; omega)), hsucc, List.getD_cons_succ]
    · refine ⟨rfl, fun x => (if_neg fun h => ?_).symm⟩
      have hmax : Config.memSize = 4096 := rfl
      have := x.isLt
      omega

/-- From 0x050 up memory that nothing was written to reads as zero (R41). -/
theorem unlistedByte_of_le {a : Nat} (h : 0x50 ≤ a) : unlistedByte a = 0x00#8 := List.getD_eq_default fontTable 0#8 h

/-- Settles O55: the load of the image from 0x200 into the reset state. -/
theorem romImageLandsAt0x200 : Obligations.RomImageLandsAt0x200 := by
  intro rom
  obtain ⟨hmem, hread⟩ := State.loadBytes_spec rom (s := State.reset) rfl (Nat.le_refl Config.romBase)
  have hbase : Config.romBase = 0x200 := rfl
  rw [hbase] at hread
  refine ⟨hmem, fun a => ⟨fun hlo hin => ?_, fun hlo hout => ?_, fun hlow => ?_⟩⟩
  · exact (hread a).trans (if_pos ⟨hlo, hin⟩)
  · exact (hread a).trans ((if_neg (by omega)).trans (unlistedByte_of_le (by omega)))
  · exact (hread a).trans (if_neg (by omega))

/-! ### The load port -/

/-- Settles O56: the load port is one memory write or nothing, and step 1 of a running tick closes the boot phase. -/
theorem loadPortWritesOnlyAtBoot : Obligations.LoadPortWritesOnlyAtBoot := by
  refine ⟨fun we addr data s => ⟨_, rfl, fun hb hwe haddr => ?_, fun h => ?_⟩, fun inp s hs => ?_⟩
  · rw [State.loadPort_eq, if_pos ⟨hb, hwe, haddr⟩]
    exact ⟨by rw [State.memRead_memWrite, if_pos rfl], s.onlyMem_memWrite addr data⟩
  · rw [State.loadPort_eq, if_neg]
    rintro ⟨hb, hwe, haddr⟩
    rcases h with h | h | h
    · exact Bool.false_ne_true (h.symm.trans hb)
    · exact Bool.false_ne_true (h.symm.trans hwe)
    · exact Nat.not_lt.2 haddr h
  · obtain ⟨t, ht, hk⟩ := tickWith_housekeeping hs inp
    exact ⟨t, ht, congrArg Housekeeping.booting hk⟩

/-! ### The reset values -/

theorem State.getV_reset (r : Reg) : State.reset.getV r = 0#8 := Vector.getElem_replicate r.isLt

/-- Settles O53: every register is its literal reset value, and memory from 0x050 up lists nothing and reads as zero. -/
theorem resetValuesOfEveryRegister : Obligations.ResetValuesOfEveryRegister :=
  ⟨rfl, State.getV_reset, rfl, rfl, fun _ hk => Vector.getElem_replicate hk, rfl, rfl, pixel_zero, rfl,
    fun _ => BitVec.getLsbD_zero, rfl, rfl, rfl, rfl, rfl, fun _ ha => unlistedByte_of_le ha⟩

/-- Settles O54: the sixteen glyphs of the font table, read at their sixteen places. -/
theorem fontGlyphsStandAtFiveTimesTheDigit : Obligations.FontGlyphsStandAtFiveTimesTheDigit := by
  unfold Obligations.FontGlyphsStandAtFiveTimesTheDigit
  decide

end Sys2Proof.Machine
end

section
/-! Control flow with the stack (R86, R87) and the compare-and-skips (R88 to R91). O22 to O25. -/
namespace Sys2Proof.Machine

theorem decodeWord_ret : decodeWord 0x00EE#16 = .ret := by decide

/-- Settles O22: CALL with room is one push and one jump. -/
theorem callPushesAndJumps : Obligations.CallPushesAndJumps := by
  refine fun nnn s => ⟨decodeWord_encode (i := .call nnn) rfl, fun room => ?_⟩
  refine ⟨_, exec_call_of_room nnn room, rfl, rfl, fun k hk => ?_, rfl⟩
  rw [State.jump_stack, State.push_stack, Vector.getElem_set]
  simp only [eq_comm]

/-- Settles O23: RET with an entry is one pop. -/
theorem retPopsAndReturns : Obligations.RetPopsAndReturns :=
  fun _ => ⟨decodeWord_ret, fun entry => ⟨_, exec_ret_of_entry entry, rfl, fun _ => rfl, rfl⟩⟩

/-- Settles O24: RET pops the entry that CALL pushed. -/
theorem callThenReturnResumes : Obligations.CallThenReturnResumes := by
  refine fun nnn s room => ⟨_, exec_call_of_room nnn room, fun u hsp hstack => ?_⟩
  have hval : u.sp.val = s.sp.val + 1 := congrArg Fin.val hsp
  have entry : 0 < u.sp.val := by omega
  refine ⟨_, exec_ret_of_entry entry, ?_, ?_⟩
  · have htop : u.top entry = u.stack[s.sp.val] := by simp only [State.top, hval, Nat.add_sub_cancel]
    rw [State.pop_pc, htop]
    simp only [hstack, State.jump_stack, State.push_stack, Vector.getElem_set_self]
  · apply Fin.ext
    rw [State.pop_sp]
    show u.sp.val - 1 = s.sp.val
    omega

theorem exec_seVxKk (x : Reg) (kk : Byte) (s : State) : exec (.seVxKk x kk) s = .next (s.skipIf (s.getV x == kk)) := rfl

theorem exec_sneVxKk (x : Reg) (kk : Byte) (s : State) : exec (.sneVxKk x kk) s = .next (s.skipIf (s.getV x != kk)) := rfl

theorem exec_seVxVy (x y : Reg) (s : State) : exec (.seVxVy x y) s = .next (s.skipIf (s.getV x == s.getV y)) := rfl

theorem exec_sneVxVy (x y : Reg) (s : State) : exec (.sneVxVy x y) s = .next (s.skipIf (s.getV x != s.getV y)) := rfl

/-- A skip adds 2 to PC when its condition holds and changes nothing else (R83). -/
theorem State.next_skipIf {s : State} {c : Bool} {p : Prop} [Decidable p] (h : c = true ↔ p) :
    (.next (s.skipIf c) : Result) = .next { s with pc := if p then s.pc + 2#12 else s.pc } := by
  rw [s.skipIf_eq, if_congr h rfl rfl]
  rfl

theorem decodeWord_packXYN_5 {x y : Reg} {n : Nibble} (hn : n ≠ 0#4) :
    decodeWord (packXYN 0x5#4 x y n) = .nop (packXYN 0x5#4 x y n) :=
  (decodeWord_eq_nop_iff _).2 (by simp [nopWord, hn])

theorem decodeWord_packXYN_9 {x y : Reg} {n : Nibble} (hn : n ≠ 0#4) :
    decodeWord (packXYN 0x9#4 x y n) = .nop (packXYN 0x9#4 x y n) :=
  (decodeWord_eq_nop_iff _).2 (by simp [nopWord, hn])

/-- Settles O25: the four words are the encodings of the skips, each skips by its comparison, and with another fourth nibble the word is
in the list of the NOP tag. -/
theorem skipsAddTwoWhenTheyHold : Obligations.SkipsAddTwoWhenTheyHold := fun x y kk s =>
  ⟨⟨decodeWord_encode (i := .seVxKk x kk) rfl, (exec_seVxKk x kk s).trans (State.next_skipIf beq_iff_eq)⟩,
   ⟨decodeWord_encode (i := .sneVxKk x kk) rfl, (exec_sneVxKk x kk s).trans (State.next_skipIf bne_iff_ne)⟩,
   ⟨decodeWord_encode (i := .seVxVy x y) rfl, (exec_seVxVy x y s).trans (State.next_skipIf beq_iff_eq)⟩,
   ⟨decodeWord_encode (i := .sneVxVy x y) rfl, (exec_sneVxVy x y s).trans (State.next_skipIf bne_iff_ne)⟩,
   fun _ hn => ⟨decodeWord_packXYN_5 hn, decodeWord_packXYN_9 hn⟩⟩

end Sys2Proof.Machine
end

section
/-! Arithmetic with a flag (R100 to R104), and the three writers of I (R105, R108, R109). O29, O30 and O31. -/
namespace Sys2Proof.Machine

/-- What a result and its flag leave: the flag in VF, the result in V[x] where x is not 0xF, nothing else changed (R93). -/
theorem exec_result_flag {i : Instr} {s : State} {x : Reg} {b : Byte} {c : Bool}
    (h : exec i s = .next (s.setResultFlag x b c)) :
    ∃ t, exec i s = .next t ∧ (x ≠ 0xF#4 → t.getV x = b) ∧ t.getV 0xF#4 = flagByte c ∧
      OnlyRegs (fun r => r = x ∨ r = 0xF#4) s t := by
  refine ⟨_, h, fun (hx : x ≠ regF) => ?_, ?_, rfl, fun r hr => ?_, fun _ => rfl⟩
  · rw [State.getV_setResultFlag, if_neg hx, if_pos rfl]
  · exact (s.getV_setResultFlag x b c regF).trans (if_pos rfl)
  · obtain ⟨hx, hf : r ≠ regF⟩ := not_or.1 hr
    rw [State.getV_setResultFlag, if_neg hf, if_neg hx]

theorem flagByte_decide (p : Prop) [Decidable p] : flagByte (decide p) = if p then 1#8 else 0#8 := by
  by_cases h : p <;> simp [flagByte, h]

theorem toNat_sub_byte (p q : Byte) : (p - q).toNat = (p.toNat + 256 - q.toNat) % 256 := by
  rw [BitVec.toNat_sub]
  omega

/-- Settles O29: each of the three is a result into V[x] and then a flag into VF. -/
theorem addAndSubtractSetTheFlagLast : Obligations.AddAndSubtractSetTheFlagLast := by
  intro x y s
  obtain ⟨t, ht, hx, hf, hframe⟩ := exec_result_flag (exec_addVxVy x y s)
  obtain ⟨u, hu, hux, huf, huframe⟩ := exec_result_flag (exec_subVxVy x y s)
  obtain ⟨v, hv, hvx, hvf, hvframe⟩ := exec_result_flag (exec_subnVxVy x y s)
  refine ⟨⟨t, ht, fun h => ?_, hf.trans (flagByte_decide _), hframe⟩, ⟨u, hu, fun h => ?_, huf.trans (flagByte_decide _), huframe⟩,
    ⟨v, hv, fun h => ?_, hvf.trans (flagByte_decide _), hvframe⟩⟩
  · rw [hx h, BitVec.toNat_add]
  · rw [hux h, toNat_sub_byte]
  · rw [hvx h, toNat_sub_byte]

theorem toNat_flagByte_lowBit (p : Byte) : (flagByte (lowBit p)).toNat = p.toNat % 2 := by
  revert p; decide

theorem toNat_flagByte_highBit (p : Byte) : (flagByte (highBit p)).toNat = p.toNat / 128 := by
  revert p; decide

/-- Settles O30: each shift is a result into V[x] and then a flag into VF, and the y field is not in its meaning. -/
theorem shiftsUseOnlyTheTargetRegister : Obligations.ShiftsUseOnlyTheTargetRegister := by
  intro x y s
  obtain ⟨t, ht, hx, hf, hframe⟩ := exec_result_flag (exec_shrVx x y s)
  obtain ⟨u, hu, hux, huf, huframe⟩ := exec_result_flag (exec_shlVx x y s)
  refine ⟨⟨t, ht, fun h => ?_, ?_, hframe⟩, ⟨u, hu, fun h => ?_, ?_, huframe⟩, fun y' => ⟨rfl, rfl⟩⟩
  · rw [hx h, BitVec.toNat_ushiftRight, Nat.shiftRight_eq_div_pow, pow_one]
  · rw [hf, toNat_flagByte_lowBit]
  · rw [hux h, BitVec.toNat_shiftLeft, Nat.shiftLeft_eq, pow_one, Nat.mul_comm]
  · rw [huf, toNat_flagByte_highBit]

theorem State.onlyIndex (s : State) (a : Addr) : OnlyIndex s { s with i := a } := ⟨rfl, fun _ => rfl, fun _ => rfl⟩

theorem toNat_glyphAddr (b : Byte) : (glyphAddr b).toNat = 5 * b.toNat := by
  have hb : (b.setWidth 12).toNat = b.toNat := BitVec.toNat_setWidth_of_le (by decide)
  have h5 : (5#12).toNat = 5 := rfl
  rw [glyphAddr, BitVec.toNat_mul, hb, h5]
  omega

/-- Settles O31: each of the three is one write of I. -/
theorem indexInstructionsSetI : Obligations.IndexInstructionsSetI := by
  refine fun x nnn s => ⟨exec_ldINnn nnn s, ⟨_, exec_addIVx x s, ?_, s.onlyIndex _⟩,
    ⟨_, exec_ldFVx x s, toNat_glyphAddr _, s.onlyIndex _⟩⟩
  calc (s.i + s.regAddr x).toNat
    _ = (s.i.toNat + (s.regAddr x).toNat) % 4096 := BitVec.toNat_add _ _
    _ = (s.i.toNat + (s.getV x).toNat) % 4096 := by rw [State.toNat_regAddr]

end Sys2Proof.Machine
end

section
/-! A store into the next instruction word (R58). O36. -/
namespace Sys2Proof.Machine

/-- Settles O36: the bytes the next tick fetches stand at I and I + 1, where the block store puts V0 and V1. -/
theorem storeIsSeenByTheNextFetch : Obligations.StoreIsSeenByTheNextFetch := by
  intro inp s x hs hi hx hidx
  have hread {r : Reg} (hr : r.toNat ≤ x.toNat) :=
    (s.beginTick inp).fetchAdvance.memRead_storeRegs_indexed x.isLt hr
  generalize ht : State.storeRegs (x.toNat + 1) (s.beginTick inp).fetchAdvance = t at hread
  have htick : tickWith inp s = .next t := by rw [tickWith_running hs, hi, exec_ldMemVx, ht]
  rw [State.storeRegs_eq] at ht
  have hpc : t.pc = s.pc + 2#12 := by rw [← ht]; rfl
  refine ⟨t, htick, by rw [← ht]; exact hs, hpc, ?_⟩
  have h0 : t.memRead (s.pc + 2#12) = s.getV 0#4 := by
    rw [← hidx]
    have h := hread (r := 0#4) (Nat.zero_le _)
    simpa [State.indexed] using h
  have h1 : t.memRead (s.pc + 2#12 + 1#12) = s.getV 1#4 := by
    rw [← hidx]
    exact hread (r := 1#4) hx
  rw [hpc, State.instrAt_eq, h0, h1]
  rfl

end Sys2Proof.Machine
end

section
/-! Drawing (R113, R114): the sprite's bit at every pixel, XORed in, and the collision it reports. O37 and O38. -/
namespace Sys2Proof.Machine

/-- The bit of the sprite at one of its own pixels is the bit of its row's byte, the most significant one first (R113). -/
theorem State.spriteBit_covered (s : State) (x0 y0 : Byte) {n r j : Nat} (hn : n ≤ 32) (hr : r < n) (hj : j < 8) :
    s.spriteBit x0 y0 n ((x0.toNat + j) % 64) ((y0.toNat + r) % 32) = (s.memRead (s.indexed r)).getLsbD (7 - j) := by
  have hcol : colOf x0 ((x0.toNat + j) % 64) = j := (eq_col_iff x0 (Nat.mod_lt _ (by omega)) (by omega)).1 rfl
  have hrow : rowOf y0 ((y0.toNat + r) % 32) = r := (eq_row_iff y0 (Nat.mod_lt _ (by omega)) (by omega)).1 rfl
  simp [State.spriteBit_eq, hcol, hrow, hr, hj]

/-- A pixel under a 1-bit of the sprite is one the sprite covers, at its offsets from the sprite's corner. -/
theorem State.covered_of_spriteBit {s : State} {x0 y0 : Byte} {n px py : Nat} (hn : n ≤ 32) (hx : px < 64) (hy : py < 32)
    (h : s.spriteBit x0 y0 n px py = true) :
    ∃ r j, r < n ∧ j < 8 ∧ px = (x0.toNat + j) % 64 ∧ py = (y0.toNat + r) % 32 := by
  simp only [State.spriteBit_eq, Bool.and_eq_true, decide_eq_true_eq] at h
  obtain ⟨⟨hj, hr⟩, -⟩ := h
  exact ⟨rowOf y0 py, colOf x0 px, hr, hj, (eq_col_iff x0 hx (by omega)).2 rfl, (eq_row_iff y0 hy (by omega)).2 rfl⟩

/-- A property of the pixels under the 1-bits of a sprite, by the sprite's rows and columns. -/
theorem State.exists_spriteBit_iff (s : State) (x0 y0 : Byte) {n : Nat} (hn : n ≤ 32) (P : Nat → Nat → Prop) :
    (∃ px py, px < 64 ∧ py < 32 ∧ s.spriteBit x0 y0 n px py = true ∧ P px py) ↔
      ∃ r j, r < n ∧ j < 8 ∧ (s.memRead (s.indexed r)).getLsbD (7 - j) = true ∧
        P ((x0.toNat + j) % 64) ((y0.toNat + r) % 32) := by
  constructor
  · rintro ⟨px, py, hx, hy, hbit, hP⟩
    obtain ⟨r, j, hr, hj, rfl, rfl⟩ := State.covered_of_spriteBit hn hx hy hbit
    rw [s.spriteBit_covered x0 y0 hn hr hj] at hbit
    exact ⟨r, j, hr, hj, hbit, hP⟩
  · rintro ⟨r, j, hr, hj, hbit, hP⟩
    exact ⟨_, _, Nat.mod_lt _ (by omega), Nat.mod_lt _ (by omega), by rwa [s.spriteBit_covered x0 y0 hn hr hj], hP⟩

theorem flagByte_eq_one_iff (c : Bool) : flagByte c = 1#8 ↔ c = true := by cases c <;> decide

theorem flagByte_eq_zero_or_one (c : Bool) : flagByte c = 0#8 ∨ flagByte c = 1#8 := by cases c <;> decide

/-- What DRW leaves: every pixel XORed with the sprite's bit at it, the collision in VF, DIRTY set, nothing else changed (R113). -/
structure Drawn (x y : Reg) (n : Nibble) (s t : State) : Prop where
  pixels : ∀ px py, px < 64 → py < 32 →
    pixel t.fb px py = (pixel s.fb px py ^^ s.spriteBit (s.getV x) (s.getV y) n.toNat px py)
  flag : t.getV 0xF#4 = 0#8 ∨ t.getV 0xF#4 = 1#8
  collision : t.getV 0xF#4 = 1#8 ↔ ∃ px py, px < 64 ∧ py < 32 ∧
    s.spriteBit (s.getV x) (s.getV y) n.toNat px py = true ∧ pixel s.fb px py = true
  regs : ∀ r, r ≠ 0xF#4 → t.getV r = s.getV r
  frame : t = { s with v := t.v, fb := t.fb, dirty := true }

theorem toNat_nibble_le (n : Nibble) : n.toNat ≤ 32 := by omega

theorem exec_drw_drawn (x y : Reg) (n : Nibble) (s : State) : ∃ t, exec (.drw x y n) s = .next t ∧ Drawn x y n s t := by
  have hflag (b : Byte) : (s.setV regF b).getV 0xF#4 = b := (s.getV_setV regF b regF).trans (if_pos rfl)
  refine ⟨_, exec_drw x y n s, fun px py hx hy => ?_, ?_, ?_, fun r hr => ?_, rfl⟩
  · exact s.pixel_drawRows _ _ (toNat_nibble_le n) _ hx hy
  · exact (flagByte_eq_zero_or_one _).imp (hflag _).trans (hflag _).trans
  · refine ((hflag _).congr_left.trans (flagByte_eq_one_iff _)).trans
      ((s.collision_drawRows _ _ (toNat_nibble_le n) _).trans ?_)
    simp
  · exact (s.getV_setV regF _ r).trans (if_neg hr)

/-- Settles O37: the pixels, VF and the frame of a DRW, by the sprite's rows and columns. -/
theorem drawXorsTheSpriteAndReportsCollision : Obligations.DrawXorsTheSpriteAndReportsCollision := by
  intro x y n s
  obtain ⟨t, ht, hd⟩ := exec_drw_drawn x y n s
  have hn := toNat_nibble_le n
  refine ⟨t, ht, fun r j hr hj => ?_, fun px py hx hy hout => ?_, hd.flag,
    hd.collision.trans (s.exists_spriteBit_iff _ _ hn fun px py => pixel s.fb px py = true), hd.regs, fun a => ?_, hd.frame⟩
  · rw [hd.pixels _ _ (Nat.mod_lt _ (by omega)) (Nat.mod_lt _ (by omega)), s.spriteBit_covered _ _ hn hr hj]
  · have hbit : s.spriteBit (s.getV x) (s.getV y) n.toNat px py = false := by
      rw [Bool.eq_false_iff]
      intro h
      obtain ⟨r, j, hr, hj, hpx, hpy⟩ := State.covered_of_spriteBit hn hx hy h
      exact hout r j hr hj ⟨hpx, hpy⟩
    rw [hd.pixels px py hx hy, hbit, Bool.xor_false]
  · rw [hd.frame]
    rfl

/-- Framebuffers with the same 64 × 32 pixels are the same. -/
theorem eq_of_pixel_eq {f g : Framebuffer} (h : ∀ px py, px < 64 → py < 32 → pixel f px py = pixel g px py) : f = g := by
  apply BitVec.eq_of_getLsbD_eq
  intro k hk
  have hindex : pixelIndex (k % 64) (k / 64) = k := Nat.div_add_mod k 64
  have hpixel := h (k % 64) (k / 64) (Nat.mod_lt _ (by omega)) (by omega)
  rwa [pixel, pixel, hindex] at hpixel

/-- Settles O38: the second draw finds the same coordinates and sprite, so it XORs every pixel with the same bit again, and what it finds
set under a 1-bit is what the first found unset. -/
theorem drawTwiceRestoresTheScreen : Obligations.DrawTwiceRestoresTheScreen := by
  intro x y n s hxF hyF
  obtain ⟨t, ht, hfirst⟩ := exec_drw_drawn x y n s
  obtain ⟨u, hu, hsecond⟩ := exec_drw_drawn x y n t
  have hbit (px py : Nat) :
      t.spriteBit (t.getV x) (t.getV y) n.toNat px py = s.spriteBit (s.getV x) (s.getV y) n.toNat px py := by
    rw [hfirst.regs x hxF, hfirst.regs y hyF, hfirst.frame]
    rfl
  refine ⟨t, u, ht, hu, eq_of_pixel_eq fun px py hx hy => ?_, ?_⟩
  · rw [hsecond.pixels px py hx hy, hfirst.pixels px py hx hy, hbit, Bool.xor_assoc, Bool.xor_self, Bool.xor_false]
  · rw [hsecond.collision, ← s.exists_spriteBit_iff _ _ (toNat_nibble_le n) fun px py => pixel s.fb px py = false]
    refine exists_congr fun px => exists_congr fun py => and_congr_right fun hx => and_congr_right fun hy => ?_
    rw [hbit]
    refine and_congr_right fun hone => ?_
    rw [hfirst.pixels px py hx hy, hone, Bool.xor_true, Bool.not_eq_true']

end Sys2Proof.Machine
end

section
/-! The keypad (R119 to R121): the skips on a key and the wait for one, which runs over any idle ticks. O42, O43 and O44. -/
namespace Sys2Proof.Machine

/-- Settles O42: with an index in range each key instruction is one skip, by the key or by its absence. -/
theorem keySkipsReadTheSnapshot : Obligations.KeySkipsReadTheSnapshot := by
  intro x s h
  have hx : (s.getV x).toNat < 16 := Nat.lt_succ_of_le h
  exact ⟨(exec_skpVx_of_index hx).trans (State.next_skipIf Iff.rfl),
    (exec_sknpVx_of_index hx).trans (State.next_skipIf (Bool.not_eq_true' _).to_iff)⟩

theorem exists_leastKey {keys : Keypad} (h : keys ≠ 0#16) : ∃ k, leastKey keys = some k :=
  Option.ne_none_iff_exists'.1 fun hnone => h (leastKey_eq_none.1 hnone)

/-- With a key down LD Vx, K is one write of V[x], of the least such key (R121). -/
theorem exec_ldVxK_stores_least (x : Reg) {s : State} (h : s.key ≠ 0#16) :
    ∃ b : Byte, exec (.ldVxK x) s = .next (s.setV x b) ∧ b.toNat < 16 ∧ s.key.getLsbD b.toNat = true ∧
      ∀ k, k < b.toNat → s.key.getLsbD k = false := by
  obtain ⟨b, hb⟩ := exists_leastKey h
  exact ⟨b, exec_ldVxK_of_key hb, leastKey_eq_some.1 hb⟩

/-- Settles O43: one write of V[x], or one jump back to the instruction's own address. -/
theorem waitForKeyStoresTheLeastKey : Obligations.WaitForKeyStoresTheLeastKey := by
  refine fun x s => ⟨fun hk => ?_, fun hk => exec_ldVxK_of_no_key (leastKey_eq_none.2 hk)⟩
  obtain ⟨b, hb, hlt, hdown, hleast⟩ := exec_ldVxK_stores_least x hk
  obtain ⟨t, ht, hx, hframe⟩ := exec_writes_only_of_setV hb
  exact ⟨t, b.toNat, ht, hlt, hdown, hleast, congrArg BitVec.toNat hx, hframe⟩

/-- An idle tick on LD Vx, K is its first four steps: the fetch advance is taken back (R121). -/
theorem tickWith_ldVxK_idle {s : State} {x : Reg} (hs : s.halted = false) (hi : s.instrAt s.pc = .ldVxK x) {inp : TickInput}
    (hk : inp.keys = 0#16) : tickWith inp s = .next (s.beginTick inp) := by
  have hnone : leastKey (s.beginTick inp).fetchAdvance.key = none := leastKey_eq_none.2 hk
  rw [tickWith_running hs, hi, exec_ldVxK_of_no_key hnone, State.instrAddr_fetchAdvance_beginTick]
  rfl

/-- Idle ticks are housekeeping: over any number of them a waiting block keeps V, I, PC, memory, the stack and the screen and counts DT
down (R121, R154). -/
theorem runEvents_ldVxK_idle {idle : List TickInput} {s : State} {x : Reg} (hs : s.halted = false)
    (hi : s.instrAt s.pc = .ldVxK x) (hidle : ∀ inp ∈ idle, inp.keys = 0#16) :
    ∃ t, runEvents (idle.map Event.tick) s = .next t ∧ t.halted = false ∧ t.pc = s.pc ∧ t.v = s.v ∧ t.i = s.i ∧
      t.mem = s.mem ∧ t.sp = s.sp ∧ t.stack = s.stack ∧ t.fb = s.fb ∧ t.dt.toNat = s.dt.toNat - idle.length := by
  induction idle generalizing s with
  | nil => exact ⟨s, rfl, hs, rfl, rfl, rfl, rfl, rfl, rfl, rfl, rfl⟩
  | cons inp idle ih =>
    have htick : (Event.tick inp).apply s = .next (s.beginTick inp) :=
      tickWith_ldVxK_idle hs hi (hidle inp List.mem_cons_self)
    obtain ⟨t, ht, hh, hpc, hv, hindex, hmem, hsp, hstack, hfb, hdt⟩ :=
      ih (s := s.beginTick inp) hs hi fun inp' h => hidle inp' (List.mem_cons_of_mem _ h)
    refine ⟨t, (runEvents_cons htick _).trans ht, hh, hpc, hv, hindex, hmem, hsp, hstack, hfb, ?_⟩
    rw [hdt, State.beginTick_dt, toNat_countDown, List.length_cons]
    omega

/-- Settles O44: after the idle ticks the same LD Vx, K stands at PC, and the tick with a key is its write of V[x]. -/
theorem waitForKeyEndsWithAKey : Obligations.WaitForKeyEndsWithAKey := by
  intro idle s x hs hi hidle
  obtain ⟨t, ht, hh, hpc, hv, hindex, hmem, hsp, hstack, hfb, hdt⟩ := runEvents_ldVxK_idle hs hi hidle
  refine ⟨t, ht, hh, hpc, hv, hindex, hmem, hsp, hstack, hfb, hdt, fun inp hk => ?_⟩
  have hti : t.instrAt t.pc = .ldVxK x := by
    rw [← hi, hpc, instrAt_congr hmem]
  obtain ⟨b, hb, hlt, hdown, hleast⟩ := exec_ldVxK_stores_least x (s := (t.beginTick inp).fetchAdvance) hk
  refine ⟨_, b.toNat, by rw [tickWith_running hh, hti, hb], ?_, hlt, hdown, hleast, ?_, fun r hr => ?_⟩
  · rw [State.setV_pc, State.fetchAdvance_pc, State.beginTick_pc, hpc]
  · rw [State.getV_setV, if_pos rfl]
  · rw [State.getV_setV, if_neg hr, State.getV_fetchAdvance, State.getV_beginTick, State.getV, State.getV, hv]

end Sys2Proof.Machine
end

section
/-! The timers over a run of ticks (R135, R136, R150, R151), and LD ST, Vx in its own tick (R117). O41, O45 and O46. -/
namespace Sys2Proof.Machine

/-- A tick that does not halt leaves the tone by the ST it found, counted down once (R136). -/
theorem tickWith_tone {s t : State} {inp : TickInput} (hs : s.halted = false) (ht : tickWith inp s = .next t)
    (hh : t.halted = false) : t.tone = (countDown s.st != 0#8) := by
  rcases tickWith_fault_status hs inp with ⟨f, -, hf⟩ | ⟨-, hkept⟩
  · obtain rfl := Host.Outcome.next.inj (hf.symm.trans ht)
    exact absurd hh.symm Bool.false_ne_true
  · obtain ⟨-, -, -, htone⟩ := holds_of_next hkept ht
    exact htone

/-- Settles O41: LD ST, Vx is one write of ST, after step 4 of its tick has set the tone. -/
theorem soundTimerCopyLeavesTheTone : Obligations.SoundTimerCopyLeavesTheTone := by
  refine fun x s => ⟨exec_ldStVx x s, fun inp hs hi => ⟨_, tickWith_ldStVx hs hi inp, rfl, ?_⟩⟩
  exact countDown_ne_zero_iff s.st

/-- A halted block stays halted over any ticks (R131). -/
theorem runEvents_ticks_of_halted (ticks : List TickInput) {s t : State} (hs : s.halted = true)
    (ht : runEvents (ticks.map Event.tick) s = .next t) : t.halted = true := by
  induction ticks generalizing s with
  | nil =>
    obtain rfl : s = t := Host.Outcome.next.inj ht
    exact hs
  | cons inp ticks ih =>
    rw [List.map_cons, runEvents_cons (e := .tick inp) (tickWith_halted hs inp)] at ht
    exact ih (s := s.haltedTick) hs ht

/-- Induction over a run of ticks that does not end halted and in which no tick runs an instruction `W` holds of: what holds of the first
state and is kept by every such tick, counting the ticks, holds of the last. -/
theorem runEvents_ticks_induction (W : Instr → Prop) (P : Nat → State → Prop)
    (keep : ∀ k inp s t, P k s → s.halted = false → ¬ W (s.instrAt s.pc) → tickWith inp s = .next t → t.halted = false →
      P (k + 1) t)
    (ticks : List TickInput) (n : Nat) {s t : State} (h0 : P n s) (ht : runEvents (ticks.map Event.tick) s = .next t)
    (hh : t.halted = false)
    (hW : ∀ k u, k < ticks.length → runEvents ((ticks.take k).map Event.tick) s = .next u → ¬ W (u.instrAt u.pc)) :
    P (n + ticks.length) t := by
  have not_halted (l : List TickInput) {u : State} (hu : runEvents (l.map Event.tick) u = .next t) : u.halted = false := by
    rw [Bool.eq_false_iff]
    intro hhalt
    exact Bool.false_ne_true (hh.symm.trans (runEvents_ticks_of_halted l hhalt hu))
  induction ticks generalizing s n with
  | nil =>
    obtain rfl : s = t := Host.Outcome.next.inj ht
    exact h0
  | cons inp ticks ih =>
    have hs := not_halted (inp :: ticks) ht
    obtain ⟨u, hu⟩ := tickWith_total inp s
    rw [List.map_cons, runEvents_cons (e := .tick inp) hu] at ht
    have hP : P (n + 1) u := keep n inp s u h0 hs (hW 0 s (Nat.succ_pos _) rfl) hu (not_halted ticks ht)
    have hlast := ih (n + 1) hP ht fun k v hk hv =>
      hW (k + 1) v (Nat.succ_lt_succ hk) ((runEvents_cons (e := .tick inp) hu _).trans hv)
    rwa [Nat.add_right_comm] at hlast

/-- Settles O45, by induction over the run: every tick takes one from DT, down to 0. -/
theorem delayTimerCountsTheTicks : Obligations.DelayTimerCountsTheTicks := by
  intro ticks s t ht hh hW
  have hlast := runEvents_ticks_induction (fun i => ∃ x, i = .ldDtVx x) (fun k u => u.dt.toNat = s.dt.toNat - k)
    (fun k inp u v hu hrun hno hv _ => ?_) ticks 0 rfl ht hh fun k u hk hu ⟨x, hx⟩ => hW k u hk hu x hx
  · rwa [Nat.zero_add] at hlast
  · obtain ⟨hdt, -⟩ := holds_of_next (tickWith_timers hrun inp) hv
    rw [hdt fun x hx => hno ⟨x, hx⟩, toNat_countDown, hu, Nat.sub_sub]

/-- Settles O46, by induction over the run: every tick takes one from ST, down to 0, and sets the tone by what is left. -/
theorem soundTimerDrivesTheTone : Obligations.SoundTimerDrivesTheTone := by
  intro ticks s t hne ht hh hW
  have hlast := runEvents_ticks_induction (fun i => ∃ x, i = .ldStVx x)
    (fun k u => u.st.toNat = s.st.toNat - k ∧ (0 < k → (u.tone = true ↔ k < s.st.toNat)))
    (fun k inp u v ⟨hu, _⟩ hrun hno hv hvh => ?_) ticks 0 ⟨rfl, fun h => absurd h (Nat.lt_irrefl 0)⟩ ht hh
    fun k u hk hu ⟨x, hx⟩ => hW k u hk hu x hx
  · rw [Nat.zero_add] at hlast
    obtain ⟨hst, htone⟩ := hlast
    exact ⟨hst, htone (List.length_pos_of_ne_nil hne)⟩
  · obtain ⟨-, hst⟩ := holds_of_next (tickWith_timers hrun inp) hv
    refine ⟨by rw [hst fun x hx => hno ⟨x, hx⟩, toNat_countDown, hu, Nat.sub_sub], fun _ => ?_⟩
    rw [tickWith_tone hrun hv hvh, countDown_ne_zero_iff, hu]
    omega

end Sys2Proof.Machine
end
